-- ==== Sys2Proof/Word.lean ====
section
/-! DEFINITION. The fixed widths of the core (spec rule R9 of 00_scope.md): XLEN and instruction
width 32, 5-bit register indices (R25), 12-bit CSR addresses (R37), bytes of memory (R51). -/

namespace Sys2Proof

/-- A register, `pc`, CSR value, instruction word or effective address (R9, R12). -/
abbrev Word := BitVec 32

/-- One byte of the memory array (R51). -/
abbrev Byte := BitVec 8

/-- A general register's index: a 5-bit field, so 32 or more cannot be formed (R25). -/
abbrev RegIdx := BitVec 5

/-- A CSR's address (R37). -/
abbrev CsrAddr := BitVec 12

end Sys2Proof
end

