-- ==== Sys2Proof/Config.lean ====
section
/-! DEFINITION. The parameters the spec leaves open (R10 of 00_scope.md; D2, D3, D11, D13 of
92_eei_decisions.md). They are plain data that `Machine.State` carries in its field `cfg` and that no step
changes, so a claim about every state is a claim for every choice of them. `MEM_INIT`, the fifth parameter,
is the memory a launch starts with (`Machine.State.launch`). -/

namespace Sys2Proof

/-- `mhartid` in the source's naming (R38). -/
def csrMhartid : CsrAddr := 0xF14

/-- `mstatus` placeholder in the source's naming (R38). -/
def csrMstatus : CsrAddr := 0x300

/-- The second `mstatus` placeholder in the source's naming (R38; C5 of 90_conflicts.md). -/
def csrMstatusAlt : CsrAddr := 0x301

/-- `mtvec` in the source's naming (R38; C5 of 90_conflicts.md); it names no handler (R193). -/
def csrMtvec : CsrAddr := 0x342

/-- The parameters of R10. -/
structure Config where
  /-- `MEM_CAPACITY`: the number of bytes of the memory array (R51, D2). -/
  memCapacity : Nat
  /-- `RESET_PC`: the value reset loads into `pc` (R212, D3). -/
  resetPc : Word
  /-- `CSR_SET` with `CSR_RESET`: each registered address with its reset value, addresses rising
  (R37, R38, D11, D13). -/
  csrReset : List (CsrAddr × Word)
deriving DecidableEq, Repr

/-- The registered addresses rise strictly from `lo` on, so each stands once. -/
def csrRisesFrom : Nat → List (CsrAddr × Word) → Bool
  | _, [] => true
  | lo, (a, _) :: rest => decide (lo ≤ a.toNat) && csrRisesFrom (a.toNat + 1) rest

/-- The constraints of R10: `1 ≤ MEM_CAPACITY ≤ 2^32`, and `CSR_SET` contains the four addresses of R38. -/
def Config.wf (c : Config) : Bool :=
  decide (1 ≤ c.memCapacity) && decide (c.memCapacity ≤ 2 ^ 32) && csrRisesFrom 0 c.csrReset &&
    [csrMstatus, csrMstatusAlt, csrMtvec, csrMhartid].all (fun a => c.csrReset.any (fun e => e.1 == a))

/-- The spec's defaults (R10's last column): capacity 0x1000, entry point 0, exactly the four addresses of
R38, each with reset value 0. DESIGN CHOICE (log entries 1, 2, 3); unsafe for claims about `State.reset`. -/
def Config.default : Config where
  memCapacity := 0x1000
  resetPc := 0
  csrReset := [(csrMstatus, 0), (csrMstatusAlt, 0), (csrMtvec, 0), (csrMhartid, 0)]

end Sys2Proof
end

