-- ==== Sys2Proof/Syntax.lean ====
section
/-! DEFINITION. The instruction set as syntax: one constructor per row of the opcode table (R85 of
30_encoding.md), in the table's order. Operands are the decoded fields of R71 to R79 at the widths the
formats give them; branch and jump offsets hold their bit 0, which R75 and R77 force to 0 (`WellFormed`). -/

namespace Sys2Proof

/-- The 45 instructions of R85. `imm` of LUI/AUIPC is `instr[31:12]` (R76); `off` of a branch is the 13-bit
value of R75, of JAL the 21-bit value of R77; `imm` of the I and S formats is the 12-bit value of R73 and
R74; `shamt` is R78's; `csr` and `zimm` are R79's. -/
inductive Instr where
  -- 41_upper_jump.md
  | lui    (rd : RegIdx) (imm : BitVec 20)
  | auipc  (rd : RegIdx) (imm : BitVec 20)
  | jal    (rd : RegIdx) (off : BitVec 21)
  | jalr   (rd rs1 : RegIdx) (imm : BitVec 12)
  -- 45_branch.md
  | beq    (rs1 rs2 : RegIdx) (off : BitVec 13)
  | bne    (rs1 rs2 : RegIdx) (off : BitVec 13)
  | blt    (rs1 rs2 : RegIdx) (off : BitVec 13)
  | bge    (rs1 rs2 : RegIdx) (off : BitVec 13)
  | bltu   (rs1 rs2 : RegIdx) (off : BitVec 13)
  | bgeu   (rs1 rs2 : RegIdx) (off : BitVec 13)
  -- 42_load_store.md
  | lb     (rd rs1 : RegIdx) (imm : BitVec 12)
  | lh     (rd rs1 : RegIdx) (imm : BitVec 12)
  | lw     (rd rs1 : RegIdx) (imm : BitVec 12)
  | lbu    (rd rs1 : RegIdx) (imm : BitVec 12)
  | lhu    (rd rs1 : RegIdx) (imm : BitVec 12)
  | sb     (rs1 rs2 : RegIdx) (imm : BitVec 12)
  | sh     (rs1 rs2 : RegIdx) (imm : BitVec 12)
  | sw     (rs1 rs2 : RegIdx) (imm : BitVec 12)
  -- 43_alu_immediate.md
  | addi   (rd rs1 : RegIdx) (imm : BitVec 12)
  | slti   (rd rs1 : RegIdx) (imm : BitVec 12)
  | sltiu  (rd rs1 : RegIdx) (imm : BitVec 12)
  | xori   (rd rs1 : RegIdx) (imm : BitVec 12)
  | ori    (rd rs1 : RegIdx) (imm : BitVec 12)
  | andi   (rd rs1 : RegIdx) (imm : BitVec 12)
  | slli   (rd rs1 : RegIdx) (shamt : BitVec 5)
  | srli   (rd rs1 : RegIdx) (shamt : BitVec 5)
  | srai   (rd rs1 : RegIdx) (shamt : BitVec 5)
  -- 44_alu_register.md
  | add    (rd rs1 rs2 : RegIdx)
  | sub    (rd rs1 rs2 : RegIdx)
  | sll    (rd rs1 rs2 : RegIdx)
  | slt    (rd rs1 rs2 : RegIdx)
  | sltu   (rd rs1 rs2 : RegIdx)
  | xor    (rd rs1 rs2 : RegIdx)
  | srl    (rd rs1 rs2 : RegIdx)
  | sra    (rd rs1 rs2 : RegIdx)
  | or     (rd rs1 rs2 : RegIdx)
  | and    (rd rs1 rs2 : RegIdx)
  -- 46_system_csr.md
  | ecall
  | ebreak
  | csrrw  (rd : RegIdx) (csr : CsrAddr) (rs1 : RegIdx)
  | csrrs  (rd : RegIdx) (csr : CsrAddr) (rs1 : RegIdx)
  | csrrc  (rd : RegIdx) (csr : CsrAddr) (rs1 : RegIdx)
  | csrrwi (rd : RegIdx) (csr : CsrAddr) (zimm : BitVec 5)
  | csrrsi (rd : RegIdx) (csr : CsrAddr) (zimm : BitVec 5)
  | csrrci (rd : RegIdx) (csr : CsrAddr) (zimm : BitVec 5)
deriving DecidableEq, Repr

end Sys2Proof
end

