-- ==== Sys2Proof/Machine/State.lean ====
section
/-! DEFINITION. The core's state as plain data (R20 to R49 of 10_state.md, R48 for memory), the reset state
(R49, R210, R211), and the reasons a step can stop without a next state: only the refusal of an
instruction without a meaning, because every fault of this core is a halt, and a halt is a next state (R15, R192). -/

namespace Sys2Proof.Machine

/-- `hstate` of the halt_fsm (R33). -/
inductive HState where
  | running
  | halted
deriving DecidableEq, Repr

/-- `halt_cause` (R34). The 4-bit code of each is `HaltCause.code`; codes 9 to 15 are never produced, so no
constructor stands for them. -/
inductive HaltCause where
  | none
  | illegalInstruction
  | fetchMisaligned
  | fetchOutOfRange
  | loadOutOfRange
  | storeOutOfRange
  | csrUndefined
  | ecall
  | ebreak
deriving DecidableEq, Repr

/-- The memory array as a list of (address, byte) in canonical form: addresses strictly rising, no entry
equal to `Memory.unlisted`. Its laws and operations are in Machine/Ops.lean. -/
abbrev Memory := List Host.Cell

/-- Everything the spec gives the machine (R49's table), and the parameters of R10 beside it. -/
structure State where
  /-- `x[0..31]` (R22). Cell 0 is never read and never written: `State.readReg` answers 0 for `x0` (R23). -/
  regs : Vector Word 32
  /-- `pc` (R28). -/
  pc : Word
  /-- `icount`, the retired-instruction count (R32). -/
  icount : BitVec 64
  /-- `hstate` (R33). -/
  hstate : HState
  /-- `halt_cause` (R34). -/
  haltCause : HaltCause
  /-- `halt_info` (R35). -/
  haltInfo : Word
  /-- `csr[a]` for each registered address `a`, addresses rising (R37, R38). An address not listed is not
  registered. -/
  csrs : List (CsrAddr × Word)
  /-- `mem[0 .. MEM_CAPACITY-1]` (R48, R51). -/
  mem : Memory
  /-- The parameters `MEM_CAPACITY`, `RESET_PC`, `CSR_SET`, `CSR_RESET` (R10); no step changes them. The
  model's own field (log entry 1). -/
  cfg : Config
deriving DecidableEq, Repr

/-- Why a step stops with a fault: never. Every fault of this core (illegal encoding, fetch, load, store,
CSR) and ECALL and EBREAK halt the core, which is a next state (R15, R110, R192); no constructor is needed.
Safe: nothing is lost, since no behaviour of the spec is a stop without a state (log entry 6). -/
inductive Fault where
deriving DecidableEq, Repr

/-- Why a step is refused. -/
inductive Refusal where
  /-- Raised by `exec` for an instruction whose arm has no meaning yet; no arm of this model raises it. Safe. -/
  | notModelled (mnemonic : String)
deriving DecidableEq, Repr

/-- The launch state of R211: reset (R210, R49's table) with memory `MEM_INIT = image`. -/
def State.launch (c : Config) (image : Memory) : State where
  regs := Vector.replicate 32 0
  pc := c.resetPc
  icount := 0
  hstate := .running
  haltCause := .none
  haltInfo := 0
  csrs := c.csrReset
  mem := image
  cfg := c

/-- The machine right after reset with the spec's default parameters and nothing listed in memory
(R49, R210; log entries 1 to 4). -/
def State.reset : State := State.launch Config.default []

end Sys2Proof.Machine
end

