-- ==== Sys2Proof/Machine/Ops.lean ====
section
/-! DEFINITION. The named operations: the register file (R22 to R27), memory (R50 to R62), the CSR map
(R37 to R41), halting, which is the core's exception entry (R15, R110, R192), reset, which is the only
return from it (R194, R210), and committing a retired instruction (R107). -/

namespace Sys2Proof.Machine

/-! ## Register file -/

/-- `x[i]` (R14, R23): 0 for index 0. -/
def State.readReg (s : State) (i : RegIdx) : Word :=
  if i = 0#5 then 0#32 else s.regs[i.toNat]'i.isLt

/-- `x[i] <- v` (R14, R23): discarded for index 0. -/
def State.writeReg (s : State) (i : RegIdx) (v : Word) : State :=
  { s with regs := if i = 0#5 then s.regs else s.regs.set i.toNat v i.isLt }

/-! ## Memory -/

/-- What an address that no cell lists reads as (log entry 4). -/
def Memory.unlisted : Byte := 0

/-- One byte. -/
def Memory.read : Memory → Nat → Byte
  | [], _ => Memory.unlisted
  | (k, v) :: m, a => if k = a then v else Memory.read m a

/-- The memory without its cells at `a`. -/
def Memory.erase : Memory → Nat → Memory
  | [], _ => []
  | (k, v) :: m, a => if k = a then Memory.erase m a else (k, v) :: Memory.erase m a

/-- A cell put before the first one of a higher address. -/
def Memory.insert : Memory → Nat → Byte → Memory
  | [], a, b => [(a, b)]
  | (k, v) :: m, a, b => if a < k then (a, b) :: (k, v) :: m else (k, v) :: Memory.insert m a b

/-- One byte written; a byte equal to `unlisted` leaves no cell, so equal memories are equal lists. -/
def Memory.write (m : Memory) (a : Nat) (b : Byte) : Memory :=
  if b = Memory.unlisted then Memory.erase m a else Memory.insert (Memory.erase m a) a b

/-- Addresses strictly rise from `lo` on and no cell holds `unlisted`. -/
def Memory.wfFrom : Nat → Memory → Bool
  | _, [] => true
  | lo, (k, v) :: m => decide (lo ≤ k) && decide (v ≠ Memory.unlisted) && Memory.wfFrom (k + 1) m

/-- The canonical form. -/
def Memory.wf (m : Memory) : Bool := Memory.wfFrom 0 m

/-- Every cell lies below `cap` (R51: an address at or above `MEM_CAPACITY` names no byte). -/
def Memory.below (cap : Nat) (m : Memory) : Bool := m.all (fun c => decide (c.1 < cap))

/-- The little-endian value of the `n` bytes at `a` (R56): byte `i` has weight `2^(8i)`. -/
def Memory.readLE (m : Memory) (a : Nat) : Nat → Nat
  | 0 => 0
  | n + 1 => Memory.readLE m a n + (Memory.read m (a + n)).toNat * 2 ^ (8 * n)

/-- The low `8n` bits of `v` written little-endian at `a` (R57): `mem[a+i] <- v[8i+7:8i]`. -/
def Memory.writeLE (m : Memory) (a : Nat) (v : Word) : Nat → Memory
  | 0 => m
  | n + 1 => Memory.write (Memory.writeLE m a v n) (a + n) (v.extractLsb' (8 * n) 8)

/-- `InRange(addr, n)` (R54), on unbounded integers: no wrap. `is_out_of_range` of R46 is its negation. -/
def State.inRange (s : State) (addr : Word) (n : Nat) : Bool :=
  decide (addr.toNat + n ≤ s.cfg.memCapacity)

/-- `MemRead(addr, n)` (R56; `read8/16/32` of R46), an 8n-bit value; used only where `inRange` holds (log entry 15). -/
def State.memRead (s : State) (addr : Word) (n : Nat) : BitVec (8 * n) :=
  BitVec.ofNat (8 * n) (Memory.readLE s.mem addr.toNat n)

/-- `MemWrite(addr, n, v)` (R57; `write8/16/32` of R46); used only where `inRange` holds (log entry 15). -/
def State.memWrite (s : State) (addr : Word) (n : Nat) (v : Word) : State :=
  { s with mem := Memory.writeLE s.mem addr.toNat v n }

/-! ## CSR map -/

/-- The value at an address, if it is registered (R37, R40). -/
def csrFind : List (CsrAddr × Word) → CsrAddr → Option Word
  | [], _ => none
  | (k, v) :: m, a => if k = a then some v else csrFind m a

/-- The value at a registered address replaced; an unregistered address gets no entry (R40). -/
def csrReplace : List (CsrAddr × Word) → CsrAddr → Word → List (CsrAddr × Word)
  | [], _, _ => []
  | (k, v) :: m, a, x => if k = a then (k, x) :: m else (k, v) :: csrReplace m a x

/-- `csr[a]`, `none` for an address not in `CSR_SET` (R14, R40). -/
def State.csrRead (s : State) (a : CsrAddr) : Option Word := csrFind s.csrs a

/-- `csr[a] <- v` (R14). -/
def State.csrWrite (s : State) (a : CsrAddr) (v : Word) : State :=
  { s with csrs := csrReplace s.csrs a v }

/-! ## Halting: taking an exception, and leaving it -/

/-- The 4-bit code of a halt cause (R34). -/
def HaltCause.code : HaltCause → BitVec 4
  | .none => 0
  | .illegalInstruction => 1
  | .fetchMisaligned => 2
  | .fetchOutOfRange => 3
  | .loadOutOfRange => 4
  | .storeOutOfRange => 5
  | .csrUndefined => 6
  | .ecall => 7
  | .ebreak => 8

/-- `halt(cause, info)` (R15, R33, R192): the one exception entry. It sets the halt state and changes nothing
else; it saves no pc and goes to no handler, and `pc` keeps the halting instruction's address. -/
def halt (c : HaltCause) (info : Word) (s : State) : State :=
  { s with hstate := .halted, haltCause := c, haltInfo := info }

/-- `reset()` (R210): the only way out of HALTED (R36, R194). Memory is not changed. -/
def resetCore (s : State) : State := State.launch s.cfg s.mem

/-! ## Committing -/

/-- The writes of a `Retire` outcome: at most one of each kind (R107). -/
structure Writes where
  /-- `x[rd] <- v`. -/
  reg : Option (RegIdx × Word) := none
  /-- `MemWrite(addr, n, v)` as (addr, n, v). -/
  mem : Option (Word × Nat × Word) := none
  /-- `csr[a] <- v`. -/
  csr : Option (CsrAddr × Word) := none
deriving DecidableEq, Repr

/-- The outcome of an instruction's rule (R100, R105). -/
inductive Effect where
  | retire (writes : Writes) (pcNext : Word)
  | halt (cause : HaltCause) (info : Word)
deriving DecidableEq, Repr

/-- The register write of a commit. -/
def applyReg : Option (RegIdx × Word) → State → State
  | none, s => s
  | some (rd, v), s => s.writeReg rd v

/-- The memory write of a commit. -/
def applyMem : Option (Word × Nat × Word) → State → State
  | none, s => s
  | some (addr, n, v), s => s.memWrite addr n v

/-- The CSR write of a commit. -/
def applyCsr : Option (CsrAddr × Word) → State → State
  | none, s => s
  | some (a, v), s => s.csrWrite a v

/-- `pc <- pc_next; icount <- icount + 1` (R107, R32). -/
def retire (pcNext : Word) (s : State) : State :=
  { s with pc := pcNext, icount := s.icount + 1#64 }

/-- `commit(writes, pc_next)` (R107). -/
def commit (w : Writes) (pcNext : Word) (s : State) : State :=
  retire pcNext (applyCsr w.csr (applyMem w.mem (applyReg w.reg s)))

/-- The state after an instruction's outcome (R100: `match outcome`). -/
def Effect.apply : Effect → State → State
  | .retire w pcNext, s => commit w pcNext s
  | .halt c info, s => Machine.halt c info s

/-- A step's outcome from an instruction's: a retiring and a halting instruction both give a next state. -/
def finish (e : Effect) (s : State) : Host.Outcome State Fault Refusal := .next (e.apply s)

/-- A sequential instruction's outcome (R108): `pc_next = pc + 4` modulo 2^32. -/
def sequential (w : Writes) (s : State) : Effect := .retire w (s.pc + 4#32)

/-- A sequential instruction that writes `x[rd]`. -/
def writeRd (rd : RegIdx) (v : Word) (s : State) : Effect := sequential { reg := some (rd, v) } s

end Sys2Proof.Machine
end

