-- ==== Sys2Proof/Machine/Flags.lean ====
section
/-! DEFINITION. The core has no flags, condition codes or predicate registers (R42); what other cores take
from flags, this one computes with the `alu` (R140) and its comparator (R165), both without state. -/

namespace Sys2Proof.Machine

/-- `alu_op` (R45, R140). -/
inductive AluOp where
  | add | sub | sll | slt | sltu | xor | srl | sra | or | and
deriving DecidableEq, Repr

/-- `cmp_op` (R45, R165). -/
inductive CmpOp where
  | eq | ne | lt | ge | ltu | geu
deriving DecidableEq, Repr

/-- 1 for true, 0 for false: the result of SLT and SLTU (R140). -/
def oneIf (b : Bool) : Word := if b then 1#32 else 0#32

/-- The shift amount `b[4:0]`; bits 31:5 of `b` are ignored (R140). -/
def shiftAmount (b : Word) : Nat := (b.extractLsb' 0 5).toNat

/-- `y = alu(alu_op, a, b)` (R140). -/
def alu : AluOp → Word → Word → Word
  | .add, a, b => a + b
  | .sub, a, b => a - b
  | .sll, a, b => a <<< shiftAmount b
  | .slt, a, b => oneIf (decide (a.toInt < b.toInt))
  | .sltu, a, b => oneIf (decide (a.toNat < b.toNat))
  | .xor, a, b => a ^^^ b
  | .srl, a, b => a >>> shiftAmount b
  | .sra, a, b => a.sshiftRight (shiftAmount b)
  | .or, a, b => a ||| b
  | .and, a, b => a &&& b

/-- `taken = cmp(cmp_op, a, b)` (R165). -/
def compareBy : CmpOp → Word → Word → Bool
  | .eq, a, b => decide (a = b)
  | .ne, a, b => decide (a ≠ b)
  | .lt, a, b => decide (a.toInt < b.toInt)
  | .ge, a, b => decide (a.toInt ≥ b.toInt)
  | .ltu, a, b => decide (a.toNat < b.toNat)
  | .geu, a, b => decide (a.toNat ≥ b.toNat)

end Sys2Proof.Machine
end

