-- ==== Sys2Proof/WellFormed.lean ====
section
/-! DEFINITION. Which instructions as syntax are an encoding of the core: the widths stand in the types of
`Instr`, and bit 0 of a branch or JAL offset is 0 (R75 and R77 of 30_encoding.md: "low bit forced to 0"). -/

namespace Sys2Proof

/-- A B-immediate is even (R75). -/
def offsetEven13 (off : BitVec 13) : Bool := !off.getLsbD 0

/-- A J-immediate is even (R77). -/
def offsetEven21 (off : BitVec 21) : Bool := !off.getLsbD 0

/-- The instruction has an encoding. -/
def Instr.wf : Instr → Bool
  | .lui _ _ => true
  | .auipc _ _ => true
  | .jal _ off => offsetEven21 off
  | .jalr _ _ _ => true
  | .beq _ _ off => offsetEven13 off
  | .bne _ _ off => offsetEven13 off
  | .blt _ _ off => offsetEven13 off
  | .bge _ _ off => offsetEven13 off
  | .bltu _ _ off => offsetEven13 off
  | .bgeu _ _ off => offsetEven13 off
  | .lb _ _ _ => true
  | .lh _ _ _ => true
  | .lw _ _ _ => true
  | .lbu _ _ _ => true
  | .lhu _ _ _ => true
  | .sb _ _ _ => true
  | .sh _ _ _ => true
  | .sw _ _ _ => true
  | .addi _ _ _ => true
  | .slti _ _ _ => true
  | .sltiu _ _ _ => true
  | .xori _ _ _ => true
  | .ori _ _ _ => true
  | .andi _ _ _ => true
  | .slli _ _ _ => true
  | .srli _ _ _ => true
  | .srai _ _ _ => true
  | .add _ _ _ => true
  | .sub _ _ _ => true
  | .sll _ _ _ => true
  | .slt _ _ _ => true
  | .sltu _ _ _ => true
  | .xor _ _ _ => true
  | .srl _ _ _ => true
  | .sra _ _ _ => true
  | .or _ _ _ => true
  | .and _ _ _ => true
  | .ecall => true
  | .ebreak => true
  | .csrrw _ _ _ => true
  | .csrrs _ _ _ => true
  | .csrrc _ _ _ => true
  | .csrrwi _ _ _ => true
  | .csrrsi _ _ _ => true
  | .csrrci _ _ _ => true

end Sys2Proof
end

