-- ==== Sys2Proof/Decode.lean ====
section
/-! DEFINITION. The decoder (R70 to R92, R97 of 30_encoding.md), total on every word and every list of
bytes, rejecting by a named reason (the items of R90); after it the encoder, written from the format and
opcode tables (R72, R82, R85). -/

namespace Sys2Proof

/-! ## Fields (R71) -/

/-- `instr[6:0]`. -/
def opcode (w : Word) : BitVec 7 := w.extractLsb' 0 7

/-- `instr[11:7]`. -/
def rdField (w : Word) : RegIdx := w.extractLsb' 7 5

/-- `instr[14:12]`. -/
def funct3 (w : Word) : BitVec 3 := w.extractLsb' 12 3

/-- `instr[19:15]`. -/
def rs1Field (w : Word) : RegIdx := w.extractLsb' 15 5

/-- `instr[24:20]`. -/
def rs2Field (w : Word) : RegIdx := w.extractLsb' 20 5

/-- `instr[31:25]`. -/
def funct7 (w : Word) : BitVec 7 := w.extractLsb' 25 7

/-! ## Immediates and operand fields before extension (R73 to R79) -/

/-- I-immediate, `instr[31:20]` (R73). -/
def fieldI (w : Word) : BitVec 12 := w.extractLsb' 20 12

/-- S-immediate, `instr[31:25]` then `instr[11:7]` (R74). -/
def fieldS (w : Word) : BitVec 12 := w.extractLsb' 25 7 ++ w.extractLsb' 7 5

/-- B-immediate, `instr[31]`, `instr[7]`, `instr[30:25]`, `instr[11:8]`, 0 (R75). -/
def fieldB (w : Word) : BitVec 13 :=
  w.extractLsb' 31 1 ++ w.extractLsb' 7 1 ++ w.extractLsb' 25 6 ++ w.extractLsb' 8 4 ++ 0#1

/-- The upper twenty bits of the U-immediate, `instr[31:12]` (R76). -/
def fieldU (w : Word) : BitVec 20 := w.extractLsb' 12 20

/-- J-immediate, `instr[31]`, `instr[19:12]`, `instr[20]`, `instr[30:21]`, 0 (R77). -/
def fieldJ (w : Word) : BitVec 21 :=
  w.extractLsb' 31 1 ++ w.extractLsb' 12 8 ++ w.extractLsb' 20 1 ++ w.extractLsb' 21 10 ++ 0#1

/-- Shift amount, `instr[24:20]` (R78). -/
def fieldShamt (w : Word) : BitVec 5 := w.extractLsb' 20 5

/-- CSR address, `instr[31:20]` (R79). -/
def fieldCsr (w : Word) : CsrAddr := w.extractLsb' 20 12

/-- CSR immediate, `instr[19:15]` (R79). -/
def fieldZimm (w : Word) : BitVec 5 := w.extractLsb' 15 5

/-! ## Dispatch (R82 to R92) -/

/-- Why a word is ILLEGAL: the items of R90, and `truncated` for fewer than four bytes (R70). -/
inductive IllegalReason where
  /-- R90 item 1: no major opcode of R82. -/
  | unknownOpcode
  /-- R90 item 2: JALR with `funct3` other than 000. -/
  | jalrFunct3
  /-- R90 item 3: LOAD with `funct3` 011, 110 or 111. -/
  | loadFunct3
  /-- R90 item 4: STORE with `funct3` 011 to 111. -/
  | storeFunct3
  /-- R90 item 5: BRANCH with `funct3` 010 or 011. -/
  | branchFunct3
  /-- R90 item 6: an immediate shift with an unused `funct7`. -/
  | shiftFunct7
  /-- R90 item 7: ALU-register with an unused (`funct7`, `funct3`). -/
  | aluFunct
  /-- R90 item 8: SYSTEM with `funct3` 000, neither ECALL nor EBREAK. -/
  | systemWord
  /-- R90 item 9: SYSTEM with `funct3` 100. -/
  | systemFunct3
  /-- Fewer than four bytes are no instruction word (R70). -/
  | truncated
deriving DecidableEq, Repr

/-- What the decoder answers: the instruction, or ILLEGAL with the reason's name (R45, R97). -/
inductive Decoded where
  | legal (i : Instr)
  | illegal (r : IllegalReason)
deriving DecidableEq, Repr

/-- The instruction, where the word has one. -/
def Decoded.instr? : Decoded → Option Instr
  | .legal i => some i
  | .illegal _ => none

/-- BRANCH, opcode 0x63 (R88). -/
def decodeBranch (w : Word) : Decoded :=
  if funct3 w = 0b000#3 then .legal (.beq (rs1Field w) (rs2Field w) (fieldB w))
  else if funct3 w = 0b001#3 then .legal (.bne (rs1Field w) (rs2Field w) (fieldB w))
  else if funct3 w = 0b100#3 then .legal (.blt (rs1Field w) (rs2Field w) (fieldB w))
  else if funct3 w = 0b101#3 then .legal (.bge (rs1Field w) (rs2Field w) (fieldB w))
  else if funct3 w = 0b110#3 then .legal (.bltu (rs1Field w) (rs2Field w) (fieldB w))
  else if funct3 w = 0b111#3 then .legal (.bgeu (rs1Field w) (rs2Field w) (fieldB w))
  else .illegal .branchFunct3

/-- LOAD, opcode 0x03 (R86). -/
def decodeLoad (w : Word) : Decoded :=
  if funct3 w = 0b000#3 then .legal (.lb (rdField w) (rs1Field w) (fieldI w))
  else if funct3 w = 0b001#3 then .legal (.lh (rdField w) (rs1Field w) (fieldI w))
  else if funct3 w = 0b010#3 then .legal (.lw (rdField w) (rs1Field w) (fieldI w))
  else if funct3 w = 0b100#3 then .legal (.lbu (rdField w) (rs1Field w) (fieldI w))
  else if funct3 w = 0b101#3 then .legal (.lhu (rdField w) (rs1Field w) (fieldI w))
  else .illegal .loadFunct3

/-- STORE, opcode 0x23 (R87). -/
def decodeStore (w : Word) : Decoded :=
  if funct3 w = 0b000#3 then .legal (.sb (rs1Field w) (rs2Field w) (fieldS w))
  else if funct3 w = 0b001#3 then .legal (.sh (rs1Field w) (rs2Field w) (fieldS w))
  else if funct3 w = 0b010#3 then .legal (.sw (rs1Field w) (rs2Field w) (fieldS w))
  else .illegal .storeFunct3

/-- ALU-immediate, opcode 0x13 (R89); `funct7` is compared in all seven bits (D7). -/
def decodeAluImm (w : Word) : Decoded :=
  if funct3 w = 0b000#3 then .legal (.addi (rdField w) (rs1Field w) (fieldI w))
  else if funct3 w = 0b010#3 then .legal (.slti (rdField w) (rs1Field w) (fieldI w))
  else if funct3 w = 0b011#3 then .legal (.sltiu (rdField w) (rs1Field w) (fieldI w))
  else if funct3 w = 0b100#3 then .legal (.xori (rdField w) (rs1Field w) (fieldI w))
  else if funct3 w = 0b110#3 then .legal (.ori (rdField w) (rs1Field w) (fieldI w))
  else if funct3 w = 0b111#3 then .legal (.andi (rdField w) (rs1Field w) (fieldI w))
  else if funct3 w = 0b001#3 ∧ funct7 w = 0b0000000#7 then
    .legal (.slli (rdField w) (rs1Field w) (fieldShamt w))
  else if funct3 w = 0b101#3 ∧ funct7 w = 0b0000000#7 then
    .legal (.srli (rdField w) (rs1Field w) (fieldShamt w))
  else if funct3 w = 0b101#3 ∧ funct7 w = 0b0100000#7 then
    .legal (.srai (rdField w) (rs1Field w) (fieldShamt w))
  else .illegal .shiftFunct7

/-- ALU-register, opcode 0x33 (R91). -/
def decodeAluReg (w : Word) : Decoded :=
  if funct7 w = 0b0000000#7 then
    if funct3 w = 0b000#3 then .legal (.add (rdField w) (rs1Field w) (rs2Field w))
    else if funct3 w = 0b001#3 then .legal (.sll (rdField w) (rs1Field w) (rs2Field w))
    else if funct3 w = 0b010#3 then .legal (.slt (rdField w) (rs1Field w) (rs2Field w))
    else if funct3 w = 0b011#3 then .legal (.sltu (rdField w) (rs1Field w) (rs2Field w))
    else if funct3 w = 0b100#3 then .legal (.xor (rdField w) (rs1Field w) (rs2Field w))
    else if funct3 w = 0b101#3 then .legal (.srl (rdField w) (rs1Field w) (rs2Field w))
    else if funct3 w = 0b110#3 then .legal (.or (rdField w) (rs1Field w) (rs2Field w))
    else .legal (.and (rdField w) (rs1Field w) (rs2Field w))
  else if funct7 w = 0b0100000#7 then
    if funct3 w = 0b000#3 then .legal (.sub (rdField w) (rs1Field w) (rs2Field w))
    else if funct3 w = 0b101#3 then .legal (.sra (rdField w) (rs1Field w) (rs2Field w))
    else .illegal .aluFunct
  else .illegal .aluFunct

/-- SYSTEM, opcode 0x73 (R92). ECALL and EBREAK are one whole word each (D9); `funct3` 100 is illegal (D10). -/
def decodeSystem (w : Word) : Decoded :=
  if funct3 w = 0b000#3 then
    if w = 0x00000073#32 then .legal .ecall
    else if w = 0x00100073#32 then .legal .ebreak
    else .illegal .systemWord
  else if funct3 w = 0b001#3 then .legal (.csrrw (rdField w) (fieldCsr w) (rs1Field w))
  else if funct3 w = 0b010#3 then .legal (.csrrs (rdField w) (fieldCsr w) (rs1Field w))
  else if funct3 w = 0b011#3 then .legal (.csrrc (rdField w) (fieldCsr w) (rs1Field w))
  else if funct3 w = 0b101#3 then .legal (.csrrwi (rdField w) (fieldCsr w) (fieldZimm w))
  else if funct3 w = 0b110#3 then .legal (.csrrsi (rdField w) (fieldCsr w) (fieldZimm w))
  else if funct3 w = 0b111#3 then .legal (.csrrci (rdField w) (fieldCsr w) (fieldZimm w))
  else .illegal .systemFunct3

/-- The decode function of R97: first-level dispatch on the whole opcode (R83, R84). -/
def decode (w : Word) : Decoded :=
  if opcode w = 0x37#7 then .legal (.lui (rdField w) (fieldU w))
  else if opcode w = 0x17#7 then .legal (.auipc (rdField w) (fieldU w))
  else if opcode w = 0x6F#7 then .legal (.jal (rdField w) (fieldJ w))
  else if opcode w = 0x67#7 then
    if funct3 w = 0b000#3 then .legal (.jalr (rdField w) (rs1Field w) (fieldI w))
    else .illegal .jalrFunct3
  else if opcode w = 0x63#7 then decodeBranch w
  else if opcode w = 0x03#7 then decodeLoad w
  else if opcode w = 0x23#7 then decodeStore w
  else if opcode w = 0x13#7 then decodeAluImm w
  else if opcode w = 0x33#7 then decodeAluReg w
  else if opcode w = 0x73#7 then decodeSystem w
  else .illegal .unknownOpcode

/-! ## Bytes (R58, R70, R104: little-endian) -/

/-- The word of four bytes, the first (lowest) byte least significant (R56, R104). -/
def wordOfBytes (b0 b1 b2 b3 : Byte) : Word := b3 ++ b2 ++ b1 ++ b0

/-- The four bytes of a word from the lowest address up (R57). -/
def bytesOfWord (w : Word) : List Byte :=
  [w.extractLsb' 0 8, w.extractLsb' 8 8, w.extractLsb' 16 8, w.extractLsb' 24 8]

/-- The decoder on bytes: the first four bytes' instruction and the bytes after it. -/
def decodeBytes : List Byte → Decoded × List Byte
  | b0 :: b1 :: b2 :: b3 :: rest => (decode (wordOfBytes b0 b1 b2 b3), rest)
  | short => (.illegal .truncated, short)

/-- The instruction read from a table row's bits: `w`'s low `nbits` bits, all bits above them 0, laid out as
four bytes in little-endian order and given to the decoder. -/
def decodeTableWord (nbits w : Nat) : Option Instr :=
  (decodeBytes (bytesOfWord (BitVec.ofNat 32 (w % 2 ^ nbits)))).1.instr?

/-! ## Encoder (R72 formats, R82 and R85 values) -/

/-- R format. -/
def encodeR (f7 : BitVec 7) (rs2 rs1 : RegIdx) (f3 : BitVec 3) (rd : RegIdx) (opc : BitVec 7) : Word :=
  f7 ++ rs2 ++ rs1 ++ f3 ++ rd ++ opc

/-- I, I-shift and I-csr formats: the upper twelve bits, then the fields of R71. -/
def encodeI (upper : BitVec 12) (rs1 : RegIdx) (f3 : BitVec 3) (rd : RegIdx) (opc : BitVec 7) : Word :=
  upper ++ rs1 ++ f3 ++ rd ++ opc

/-- S format. -/
def encodeS (imm : BitVec 12) (rs2 rs1 : RegIdx) (f3 : BitVec 3) (opc : BitVec 7) : Word :=
  imm.extractLsb' 5 7 ++ rs2 ++ rs1 ++ f3 ++ imm.extractLsb' 0 5 ++ opc

/-- B format. -/
def encodeB (off : BitVec 13) (rs2 rs1 : RegIdx) (f3 : BitVec 3) (opc : BitVec 7) : Word :=
  off.extractLsb' 12 1 ++ off.extractLsb' 5 6 ++ rs2 ++ rs1 ++ f3 ++ off.extractLsb' 1 4 ++
    off.extractLsb' 11 1 ++ opc

/-- U format. -/
def encodeU (imm : BitVec 20) (rd : RegIdx) (opc : BitVec 7) : Word := imm ++ rd ++ opc

/-- J format. -/
def encodeJ (off : BitVec 21) (rd : RegIdx) (opc : BitVec 7) : Word :=
  off.extractLsb' 20 1 ++ off.extractLsb' 1 10 ++ off.extractLsb' 11 1 ++ off.extractLsb' 12 8 ++ rd ++ opc

/-- The word of an instruction (R85). -/
def encode : Instr → Word
  | .lui rd imm => encodeU imm rd 0x37#7
  | .auipc rd imm => encodeU imm rd 0x17#7
  | .jal rd off => encodeJ off rd 0x6F#7
  | .jalr rd rs1 imm => encodeI imm rs1 0b000#3 rd 0x67#7
  | .beq rs1 rs2 off => encodeB off rs2 rs1 0b000#3 0x63#7
  | .bne rs1 rs2 off => encodeB off rs2 rs1 0b001#3 0x63#7
  | .blt rs1 rs2 off => encodeB off rs2 rs1 0b100#3 0x63#7
  | .bge rs1 rs2 off => encodeB off rs2 rs1 0b101#3 0x63#7
  | .bltu rs1 rs2 off => encodeB off rs2 rs1 0b110#3 0x63#7
  | .bgeu rs1 rs2 off => encodeB off rs2 rs1 0b111#3 0x63#7
  | .lb rd rs1 imm => encodeI imm rs1 0b000#3 rd 0x03#7
  | .lh rd rs1 imm => encodeI imm rs1 0b001#3 rd 0x03#7
  | .lw rd rs1 imm => encodeI imm rs1 0b010#3 rd 0x03#7
  | .lbu rd rs1 imm => encodeI imm rs1 0b100#3 rd 0x03#7
  | .lhu rd rs1 imm => encodeI imm rs1 0b101#3 rd 0x03#7
  | .sb rs1 rs2 imm => encodeS imm rs2 rs1 0b000#3 0x23#7
  | .sh rs1 rs2 imm => encodeS imm rs2 rs1 0b001#3 0x23#7
  | .sw rs1 rs2 imm => encodeS imm rs2 rs1 0b010#3 0x23#7
  | .addi rd rs1 imm => encodeI imm rs1 0b000#3 rd 0x13#7
  | .slti rd rs1 imm => encodeI imm rs1 0b010#3 rd 0x13#7
  | .sltiu rd rs1 imm => encodeI imm rs1 0b011#3 rd 0x13#7
  | .xori rd rs1 imm => encodeI imm rs1 0b100#3 rd 0x13#7
  | .ori rd rs1 imm => encodeI imm rs1 0b110#3 rd 0x13#7
  | .andi rd rs1 imm => encodeI imm rs1 0b111#3 rd 0x13#7
  | .slli rd rs1 shamt => encodeR 0b0000000#7 shamt rs1 0b001#3 rd 0x13#7
  | .srli rd rs1 shamt => encodeR 0b0000000#7 shamt rs1 0b101#3 rd 0x13#7
  | .srai rd rs1 shamt => encodeR 0b0100000#7 shamt rs1 0b101#3 rd 0x13#7
  | .add rd rs1 rs2 => encodeR 0b0000000#7 rs2 rs1 0b000#3 rd 0x33#7
  | .sub rd rs1 rs2 => encodeR 0b0100000#7 rs2 rs1 0b000#3 rd 0x33#7
  | .sll rd rs1 rs2 => encodeR 0b0000000#7 rs2 rs1 0b001#3 rd 0x33#7
  | .slt rd rs1 rs2 => encodeR 0b0000000#7 rs2 rs1 0b010#3 rd 0x33#7
  | .sltu rd rs1 rs2 => encodeR 0b0000000#7 rs2 rs1 0b011#3 rd 0x33#7
  | .xor rd rs1 rs2 => encodeR 0b0000000#7 rs2 rs1 0b100#3 rd 0x33#7
  | .srl rd rs1 rs2 => encodeR 0b0000000#7 rs2 rs1 0b101#3 rd 0x33#7
  | .sra rd rs1 rs2 => encodeR 0b0100000#7 rs2 rs1 0b101#3 rd 0x33#7
  | .or rd rs1 rs2 => encodeR 0b0000000#7 rs2 rs1 0b110#3 rd 0x33#7
  | .and rd rs1 rs2 => encodeR 0b0000000#7 rs2 rs1 0b111#3 rd 0x33#7
  | .ecall => 0x00000073#32
  | .ebreak => 0x00100073#32
  | .csrrw rd csr rs1 => encodeI csr rs1 0b001#3 rd 0x73#7
  | .csrrs rd csr rs1 => encodeI csr rs1 0b010#3 rd 0x73#7
  | .csrrc rd csr rs1 => encodeI csr rs1 0b011#3 rd 0x73#7
  | .csrrwi rd csr zimm => encodeI csr zimm 0b101#3 rd 0x73#7
  | .csrrsi rd csr zimm => encodeI csr zimm 0b110#3 rd 0x73#7
  | .csrrci rd csr zimm => encodeI csr zimm 0b111#3 rd 0x73#7

/-! ## The opcode table as data (R85): a word is a row's when `word & mask = pattern` -/

/-- One row of the opcode table. -/
structure OpcodeRow where
  mnemonic : String
  pattern : Word
  mask : Word
deriving DecidableEq, Repr

/-- The rows of 41_upper_jump.md. -/
def rowsUpperJump : List OpcodeRow := [
  ⟨"LUI", 0x00000037#32, 0x0000007F#32⟩,
  ⟨"AUIPC", 0x00000017#32, 0x0000007F#32⟩,
  ⟨"JAL", 0x0000006F#32, 0x0000007F#32⟩,
  ⟨"JALR", 0x00000067#32, 0x0000707F#32⟩]

/-- The rows of 45_branch.md. -/
def rowsBranch : List OpcodeRow := [
  ⟨"BEQ", 0x00000063#32, 0x0000707F#32⟩,
  ⟨"BNE", 0x00001063#32, 0x0000707F#32⟩,
  ⟨"BLT", 0x00004063#32, 0x0000707F#32⟩,
  ⟨"BGE", 0x00005063#32, 0x0000707F#32⟩,
  ⟨"BLTU", 0x00006063#32, 0x0000707F#32⟩,
  ⟨"BGEU", 0x00007063#32, 0x0000707F#32⟩]

/-- The rows of 42_load_store.md. -/
def rowsLoadStore : List OpcodeRow := [
  ⟨"LB", 0x00000003#32, 0x0000707F#32⟩,
  ⟨"LH", 0x00001003#32, 0x0000707F#32⟩,
  ⟨"LW", 0x00002003#32, 0x0000707F#32⟩,
  ⟨"LBU", 0x00004003#32, 0x0000707F#32⟩,
  ⟨"LHU", 0x00005003#32, 0x0000707F#32⟩,
  ⟨"SB", 0x00000023#32, 0x0000707F#32⟩,
  ⟨"SH", 0x00001023#32, 0x0000707F#32⟩,
  ⟨"SW", 0x00002023#32, 0x0000707F#32⟩]

/-- The rows of 43_alu_immediate.md. -/
def rowsAluImm : List OpcodeRow := [
  ⟨"ADDI", 0x00000013#32, 0x0000707F#32⟩,
  ⟨"SLTI", 0x00002013#32, 0x0000707F#32⟩,
  ⟨"SLTIU", 0x00003013#32, 0x0000707F#32⟩,
  ⟨"XORI", 0x00004013#32, 0x0000707F#32⟩,
  ⟨"ORI", 0x00006013#32, 0x0000707F#32⟩,
  ⟨"ANDI", 0x00007013#32, 0x0000707F#32⟩,
  ⟨"SLLI", 0x00001013#32, 0xFE00707F#32⟩,
  ⟨"SRLI", 0x00005013#32, 0xFE00707F#32⟩,
  ⟨"SRAI", 0x40005013#32, 0xFE00707F#32⟩]

/-- The rows of 44_alu_register.md. -/
def rowsAluReg : List OpcodeRow := [
  ⟨"ADD", 0x00000033#32, 0xFE00707F#32⟩,
  ⟨"SUB", 0x40000033#32, 0xFE00707F#32⟩,
  ⟨"SLL", 0x00001033#32, 0xFE00707F#32⟩,
  ⟨"SLT", 0x00002033#32, 0xFE00707F#32⟩,
  ⟨"SLTU", 0x00003033#32, 0xFE00707F#32⟩,
  ⟨"XOR", 0x00004033#32, 0xFE00707F#32⟩,
  ⟨"SRL", 0x00005033#32, 0xFE00707F#32⟩,
  ⟨"SRA", 0x40005033#32, 0xFE00707F#32⟩,
  ⟨"OR", 0x00006033#32, 0xFE00707F#32⟩,
  ⟨"AND", 0x00007033#32, 0xFE00707F#32⟩]

/-- The rows of 46_system_csr.md. -/
def rowsSystem : List OpcodeRow := [
  ⟨"ECALL", 0x00000073#32, 0xFFFFFFFF#32⟩,
  ⟨"EBREAK", 0x00100073#32, 0xFFFFFFFF#32⟩,
  ⟨"CSRRW", 0x00001073#32, 0x0000707F#32⟩,
  ⟨"CSRRS", 0x00002073#32, 0x0000707F#32⟩,
  ⟨"CSRRC", 0x00003073#32, 0x0000707F#32⟩,
  ⟨"CSRRWI", 0x00005073#32, 0x0000707F#32⟩,
  ⟨"CSRRSI", 0x00006073#32, 0x0000707F#32⟩,
  ⟨"CSRRCI", 0x00007073#32, 0x0000707F#32⟩]

/-- The 45 rows. -/
def opcodeRows : List OpcodeRow :=
  rowsUpperJump ++ rowsBranch ++ rowsLoadStore ++ rowsAluImm ++ rowsAluReg ++ rowsSystem

/-- The instruction's mnemonic in the table. -/
def Instr.mnemonic : Instr → String
  | .lui _ _ => "LUI"
  | .auipc _ _ => "AUIPC"
  | .jal _ _ => "JAL"
  | .jalr _ _ _ => "JALR"
  | .beq _ _ _ => "BEQ"
  | .bne _ _ _ => "BNE"
  | .blt _ _ _ => "BLT"
  | .bge _ _ _ => "BGE"
  | .bltu _ _ _ => "BLTU"
  | .bgeu _ _ _ => "BGEU"
  | .lb _ _ _ => "LB"
  | .lh _ _ _ => "LH"
  | .lw _ _ _ => "LW"
  | .lbu _ _ _ => "LBU"
  | .lhu _ _ _ => "LHU"
  | .sb _ _ _ => "SB"
  | .sh _ _ _ => "SH"
  | .sw _ _ _ => "SW"
  | .addi _ _ _ => "ADDI"
  | .slti _ _ _ => "SLTI"
  | .sltiu _ _ _ => "SLTIU"
  | .xori _ _ _ => "XORI"
  | .ori _ _ _ => "ORI"
  | .andi _ _ _ => "ANDI"
  | .slli _ _ _ => "SLLI"
  | .srli _ _ _ => "SRLI"
  | .srai _ _ _ => "SRAI"
  | .add _ _ _ => "ADD"
  | .sub _ _ _ => "SUB"
  | .sll _ _ _ => "SLL"
  | .slt _ _ _ => "SLT"
  | .sltu _ _ _ => "SLTU"
  | .xor _ _ _ => "XOR"
  | .srl _ _ _ => "SRL"
  | .sra _ _ _ => "SRA"
  | .or _ _ _ => "OR"
  | .and _ _ _ => "AND"
  | .ecall => "ECALL"
  | .ebreak => "EBREAK"
  | .csrrw _ _ _ => "CSRRW"
  | .csrrs _ _ _ => "CSRRS"
  | .csrrc _ _ _ => "CSRRC"
  | .csrrwi _ _ _ => "CSRRWI"
  | .csrrsi _ _ _ => "CSRRSI"
  | .csrrci _ _ _ => "CSRRCI"

end Sys2Proof
end

