-- ==== Sys2Proof/Machine/Operands.lean ====
section
/-! DEFINITION. The operand forms: register operands (R80), the extended immediates (R73 to R79), the
effective addresses of loads and stores (R130, R136), jump and branch targets (R122, R123, R165), and the
decoder's outputs for a word (R45). -/

namespace Sys2Proof.Machine

/-- `imm_i` and `imm_s`: `sext_12` (R73, R74). -/
def imm12 (imm : BitVec 12) : Word := imm.signExtend 32

/-- `imm_b`: `sext_13` (R75). -/
def immB (off : BitVec 13) : Word := off.signExtend 32

/-- `imm_u`: the field in bits 31:12, zeros below (R76). -/
def immU (imm : BitVec 20) : Word := imm ++ 0#12

/-- `imm_j`: `sext_21` (R77). -/
def immJ (off : BitVec 21) : Word := off.signExtend 32

/-- `zext_5(shamt)`, the `b` operand of an immediate shift (R78, R140). -/
def immShamt (shamt : BitVec 5) : Word := shamt.setWidth 32

/-- `zimm = zext_5(instr[19:15])` (R79). -/
def immZ (zimm : BitVec 5) : Word := zimm.setWidth 32

/-- `ea = x[rs1] + imm`, modulo 2^32: the one addressing mode (R130, R136). -/
def effAddr (rs1 : RegIdx) (imm : BitVec 12) (s : State) : Word := s.readReg rs1 + imm12 imm

/-- A target relative to the instruction's own pc (R122, R165), modulo 2^32 (R31). -/
def pcRelative (off : Word) (s : State) : Word := s.pc + off

/-- JALR's target: `(x[rs1] + imm_i) & ~1` (R123). -/
def jalrTarget (rs1 : RegIdx) (imm : BitVec 12) (s : State) : Word :=
  (s.readReg rs1 + imm12 imm) &&& ~~~1#32

/-- The link value: the original pc plus 4 (R122, R123). -/
def link (s : State) : Word := s.pc + 4#32

/-- The decoder's outputs (R45, R80), each computed for every word. -/
structure DecoderOutputs where
  opcode : BitVec 7
  rd : RegIdx
  funct3 : BitVec 3
  rs1 : RegIdx
  rs2 : RegIdx
  funct7 : BitVec 7
  immI : Word
  immS : Word
  immB : Word
  immU : Word
  immJ : Word
  shamt : BitVec 5
  csrAddr : CsrAddr
  zimm : Word
  op : Decoded
deriving DecidableEq, Repr

/-- The decoder block: a pure function of the word (R80). -/
def decoderOutputs (w : Word) : DecoderOutputs where
  opcode := Sys2Proof.opcode w
  rd := rdField w
  funct3 := Sys2Proof.funct3 w
  rs1 := rs1Field w
  rs2 := rs2Field w
  funct7 := Sys2Proof.funct7 w
  immI := imm12 (fieldI w)
  immS := imm12 (fieldS w)
  immB := Machine.immB (fieldB w)
  immU := Machine.immU (fieldU w)
  immJ := Machine.immJ (fieldJ w)
  shamt := fieldShamt w
  csrAddr := fieldCsr w
  zimm := immZ (fieldZimm w)
  op := decode w

end Sys2Proof.Machine
end

