-- ==== Sys2Proof/Machine/AluImmediate.lean ====
section
/-! DEFINITION. The ALU-immediate instructions (43_alu_immediate.md, R140 to R149). -/

namespace Sys2Proof.Machine

/-- `x[rd] <- alu(op, x[rs1], b)`, sequential (R140). -/
def aluImmEffect (op : AluOp) (rd rs1 : RegIdx) (b : Word) (s : State) : Effect :=
  writeRd rd (alu op (s.readReg rs1) b) s

/-- R141. -/
def execAddi (rd rs1 : RegIdx) (imm : BitVec 12) (s : State) : Host.Outcome State Fault Refusal :=
  finish (aluImmEffect .add rd rs1 (imm12 imm) s) s

/-- R142. -/
def execSlti (rd rs1 : RegIdx) (imm : BitVec 12) (s : State) : Host.Outcome State Fault Refusal :=
  finish (aluImmEffect .slt rd rs1 (imm12 imm) s) s

/-- R143: the immediate is sign-extended, then compared unsigned (C8). -/
def execSltiu (rd rs1 : RegIdx) (imm : BitVec 12) (s : State) : Host.Outcome State Fault Refusal :=
  finish (aluImmEffect .sltu rd rs1 (imm12 imm) s) s

/-- R144. -/
def execXori (rd rs1 : RegIdx) (imm : BitVec 12) (s : State) : Host.Outcome State Fault Refusal :=
  finish (aluImmEffect .xor rd rs1 (imm12 imm) s) s

/-- R145. -/
def execOri (rd rs1 : RegIdx) (imm : BitVec 12) (s : State) : Host.Outcome State Fault Refusal :=
  finish (aluImmEffect .or rd rs1 (imm12 imm) s) s

/-- R146. -/
def execAndi (rd rs1 : RegIdx) (imm : BitVec 12) (s : State) : Host.Outcome State Fault Refusal :=
  finish (aluImmEffect .and rd rs1 (imm12 imm) s) s

/-- R147. -/
def execSlli (rd rs1 : RegIdx) (shamt : BitVec 5) (s : State) : Host.Outcome State Fault Refusal :=
  finish (aluImmEffect .sll rd rs1 (immShamt shamt) s) s

/-- R148. -/
def execSrli (rd rs1 : RegIdx) (shamt : BitVec 5) (s : State) : Host.Outcome State Fault Refusal :=
  finish (aluImmEffect .srl rd rs1 (immShamt shamt) s) s

/-- R149. -/
def execSrai (rd rs1 : RegIdx) (shamt : BitVec 5) (s : State) : Host.Outcome State Fault Refusal :=
  finish (aluImmEffect .sra rd rs1 (immShamt shamt) s) s

end Sys2Proof.Machine
end

