-- ==== Sys2Proof/Machine/AluRegister.lean ====
section
/-! DEFINITION. The ALU-register instructions (44_alu_register.md, R150 to R161). -/

namespace Sys2Proof.Machine

/-- `x[rd] <- alu(op, x[rs1], x[rs2])`, sequential, from the old register values (R151). -/
def aluRegEffect (op : AluOp) (rd rs1 rs2 : RegIdx) (s : State) : Effect :=
  writeRd rd (alu op (s.readReg rs1) (s.readReg rs2)) s

/-- R152. -/
def execAdd (rd rs1 rs2 : RegIdx) (s : State) : Host.Outcome State Fault Refusal :=
  finish (aluRegEffect .add rd rs1 rs2 s) s

/-- R153. -/
def execSub (rd rs1 rs2 : RegIdx) (s : State) : Host.Outcome State Fault Refusal :=
  finish (aluRegEffect .sub rd rs1 rs2 s) s

/-- R154. -/
def execSll (rd rs1 rs2 : RegIdx) (s : State) : Host.Outcome State Fault Refusal :=
  finish (aluRegEffect .sll rd rs1 rs2 s) s

/-- R155. -/
def execSlt (rd rs1 rs2 : RegIdx) (s : State) : Host.Outcome State Fault Refusal :=
  finish (aluRegEffect .slt rd rs1 rs2 s) s

/-- R156. -/
def execSltu (rd rs1 rs2 : RegIdx) (s : State) : Host.Outcome State Fault Refusal :=
  finish (aluRegEffect .sltu rd rs1 rs2 s) s

/-- R157. -/
def execXor (rd rs1 rs2 : RegIdx) (s : State) : Host.Outcome State Fault Refusal :=
  finish (aluRegEffect .xor rd rs1 rs2 s) s

/-- R158. -/
def execSrl (rd rs1 rs2 : RegIdx) (s : State) : Host.Outcome State Fault Refusal :=
  finish (aluRegEffect .srl rd rs1 rs2 s) s

/-- R159. -/
def execSra (rd rs1 rs2 : RegIdx) (s : State) : Host.Outcome State Fault Refusal :=
  finish (aluRegEffect .sra rd rs1 rs2 s) s

/-- R160. -/
def execOr (rd rs1 rs2 : RegIdx) (s : State) : Host.Outcome State Fault Refusal :=
  finish (aluRegEffect .or rd rs1 rs2 s) s

/-- R161. -/
def execAnd (rd rs1 rs2 : RegIdx) (s : State) : Host.Outcome State Fault Refusal :=
  finish (aluRegEffect .and rd rs1 rs2 s) s

end Sys2Proof.Machine
end

