-- ==== Sys2Proof/Machine/Branch.lean ====
section
/-! DEFINITION. The conditional branches (45_branch.md, R165 to R172). -/

namespace Sys2Proof.Machine

/-- R165: `pc <- taken ? pc + imm_b : pc + 4`; no register, memory or CSR write. -/
def branchEffect (op : CmpOp) (rs1 rs2 : RegIdx) (off : BitVec 13) (s : State) : Effect :=
  if compareBy op (s.readReg rs1) (s.readReg rs2) then .retire {} (pcRelative (immB off) s)
  else sequential {} s

/-- R166. -/
def execBeq (rs1 rs2 : RegIdx) (off : BitVec 13) (s : State) : Host.Outcome State Fault Refusal :=
  finish (branchEffect .eq rs1 rs2 off s) s

/-- R167. -/
def execBne (rs1 rs2 : RegIdx) (off : BitVec 13) (s : State) : Host.Outcome State Fault Refusal :=
  finish (branchEffect .ne rs1 rs2 off s) s

/-- R168. -/
def execBlt (rs1 rs2 : RegIdx) (off : BitVec 13) (s : State) : Host.Outcome State Fault Refusal :=
  finish (branchEffect .lt rs1 rs2 off s) s

/-- R169. -/
def execBge (rs1 rs2 : RegIdx) (off : BitVec 13) (s : State) : Host.Outcome State Fault Refusal :=
  finish (branchEffect .ge rs1 rs2 off s) s

/-- R170. -/
def execBltu (rs1 rs2 : RegIdx) (off : BitVec 13) (s : State) : Host.Outcome State Fault Refusal :=
  finish (branchEffect .ltu rs1 rs2 off s) s

/-- R171. -/
def execBgeu (rs1 rs2 : RegIdx) (off : BitVec 13) (s : State) : Host.Outcome State Fault Refusal :=
  finish (branchEffect .geu rs1 rs2 off s) s

end Sys2Proof.Machine
end

