-- ==== Sys2Proof/Machine/LoadStore.lean ====
section
/-! DEFINITION. Loads and stores (42_load_store.md, R130 to R139). No access needs alignment (R60). -/

namespace Sys2Proof.Machine

/-- R130: the range check first, then the `n`-byte value, extended, to `x[rd]`. With `rd` = 0 the load is
still performed and still range-checked. -/
def loadEffect (n : Nat) (extend : BitVec (8 * n) → Word) (rd rs1 : RegIdx) (imm : BitVec 12) (s : State) : Effect :=
  if s.inRange (effAddr rs1 imm s) n then writeRd rd (extend (s.memRead (effAddr rs1 imm s) n)) s
  else .halt .loadOutOfRange (effAddr rs1 imm s)

/-- R136: the range check first, then the low `8n` bits of `x[rs2]` to memory. -/
def storeEffect (n : Nat) (rs1 rs2 : RegIdx) (imm : BitVec 12) (s : State) : Effect :=
  if s.inRange (effAddr rs1 imm s) n then
    sequential { mem := some (effAddr rs1 imm s, n, s.readReg rs2) } s
  else .halt .storeOutOfRange (effAddr rs1 imm s)

/-- R131: `sext_8`. -/
def execLb (rd rs1 : RegIdx) (imm : BitVec 12) (s : State) : Host.Outcome State Fault Refusal :=
  finish (loadEffect 1 (fun raw => raw.signExtend 32) rd rs1 imm s) s

/-- R132: `sext_16`. -/
def execLh (rd rs1 : RegIdx) (imm : BitVec 12) (s : State) : Host.Outcome State Fault Refusal :=
  finish (loadEffect 2 (fun raw => raw.signExtend 32) rd rs1 imm s) s

/-- R133. -/
def execLw (rd rs1 : RegIdx) (imm : BitVec 12) (s : State) : Host.Outcome State Fault Refusal :=
  finish (loadEffect 4 (fun raw => raw) rd rs1 imm s) s

/-- R134: `zext_8`. -/
def execLbu (rd rs1 : RegIdx) (imm : BitVec 12) (s : State) : Host.Outcome State Fault Refusal :=
  finish (loadEffect 1 (fun raw => raw.setWidth 32) rd rs1 imm s) s

/-- R135: `zext_16`. -/
def execLhu (rd rs1 : RegIdx) (imm : BitVec 12) (s : State) : Host.Outcome State Fault Refusal :=
  finish (loadEffect 2 (fun raw => raw.setWidth 32) rd rs1 imm s) s

/-- R137. -/
def execSb (rs1 rs2 : RegIdx) (imm : BitVec 12) (s : State) : Host.Outcome State Fault Refusal :=
  finish (storeEffect 1 rs1 rs2 imm s) s

/-- R138. -/
def execSh (rs1 rs2 : RegIdx) (imm : BitVec 12) (s : State) : Host.Outcome State Fault Refusal :=
  finish (storeEffect 2 rs1 rs2 imm s) s

/-- R139. -/
def execSw (rs1 rs2 : RegIdx) (imm : BitVec 12) (s : State) : Host.Outcome State Fault Refusal :=
  finish (storeEffect 4 rs1 rs2 imm s) s

end Sys2Proof.Machine
end

