-- ==== Sys2Proof/Machine/SystemCsr.lean ====
section
/-! DEFINITION. ECALL, EBREAK and the six CSR instructions (46_system_csr.md, R175 to R184). -/

namespace Sys2Proof.Machine

/-- R175: halts with cause ECALL and info `pc`; nothing else changes. -/
def execEcall (s : State) : Host.Outcome State Fault Refusal :=
  finish (.halt .ecall s.pc) s

/-- R176: halts with cause EBREAK and info `pc`; nothing else changes. -/
def execEbreak (s : State) : Host.Outcome State Fault Refusal :=
  finish (.halt .ebreak s.pc) s

/-- `src` into the CSR (R178, R181). -/
def csrSwap (_old src : Word) : Word := src

/-- The bits of `src` set (R179, R182). -/
def csrSetBits (old src : Word) : Word := old ||| src

/-- The bits of `src` cleared (R180, R183). -/
def csrClearBits (old src : Word) : Word := old &&& ~~~src

/-- R177: an unregistered address halts; else the old value goes to `x[rd]` and `f old src` to the CSR, in
every case (no read or write is suppressed, D16). -/
def csrEffect (f : Word → Word → Word) (rd : RegIdx) (a : CsrAddr) (src : Word) (s : State) : Effect :=
  match s.csrRead a with
  | none => .halt .csrUndefined (a.setWidth 32)
  | some old => sequential { reg := some (rd, old), csr := some (a, f old src) } s

/-- R178. -/
def execCsrrw (rd : RegIdx) (csr : CsrAddr) (rs1 : RegIdx) (s : State) : Host.Outcome State Fault Refusal :=
  finish (csrEffect csrSwap rd csr (s.readReg rs1) s) s

/-- R179. -/
def execCsrrs (rd : RegIdx) (csr : CsrAddr) (rs1 : RegIdx) (s : State) : Host.Outcome State Fault Refusal :=
  finish (csrEffect csrSetBits rd csr (s.readReg rs1) s) s

/-- R180. -/
def execCsrrc (rd : RegIdx) (csr : CsrAddr) (rs1 : RegIdx) (s : State) : Host.Outcome State Fault Refusal :=
  finish (csrEffect csrClearBits rd csr (s.readReg rs1) s) s

/-- R181. -/
def execCsrrwi (rd : RegIdx) (csr : CsrAddr) (zimm : BitVec 5) (s : State) : Host.Outcome State Fault Refusal :=
  finish (csrEffect csrSwap rd csr (immZ zimm) s) s

/-- R182. -/
def execCsrrsi (rd : RegIdx) (csr : CsrAddr) (zimm : BitVec 5) (s : State) : Host.Outcome State Fault Refusal :=
  finish (csrEffect csrSetBits rd csr (immZ zimm) s) s

/-- R183. -/
def execCsrrci (rd : RegIdx) (csr : CsrAddr) (zimm : BitVec 5) (s : State) : Host.Outcome State Fault Refusal :=
  finish (csrEffect csrClearBits rd csr (immZ zimm) s) s

end Sys2Proof.Machine
end

