-- ==== Sys2Proof/Machine/UpperJump.lean ====
section
/-! DEFINITION. LUI, AUIPC, JAL, JALR (41_upper_jump.md, R120 to R124). -/

namespace Sys2Proof.Machine

/-- R120. -/
def execLui (rd : RegIdx) (imm : BitVec 20) (s : State) : Host.Outcome State Fault Refusal :=
  finish (writeRd rd (immU imm) s) s

/-- R121. -/
def execAuipc (rd : RegIdx) (imm : BitVec 20) (s : State) : Host.Outcome State Fault Refusal :=
  finish (writeRd rd (alu .add s.pc (immU imm)) s) s

/-- R122: the link is the original pc plus 4. A target that is no multiple of 4 retires too (D32). -/
def execJal (rd : RegIdx) (off : BitVec 21) (s : State) : Host.Outcome State Fault Refusal :=
  finish (.retire { reg := some (rd, link s) } (pcRelative (immJ off) s)) s

/-- R123: the target uses the old `x[rs1]`, with bit 0 cleared. -/
def execJalr (rd rs1 : RegIdx) (imm : BitVec 12) (s : State) : Host.Outcome State Fault Refusal :=
  finish (.retire { reg := some (rd, link s) } (jalrTarget rs1 imm s)) s

end Sys2Proof.Machine
end

