-- ==== Sys2Proof/Machine/Cycle.lean ====
section
/-! DEFINITION. The execution cycle (40_cycle.md): fetch (R102 to R104), execute (R100, R105, R106), the step,
the host-driven `exec(word)` (R112), and the other host calls of R47 and R65. -/

namespace Sys2Proof.Machine

/-- The fetch_unit's answer: the word, or which fetch check fails (R45 `fetch_fault`). -/
inductive Fetched where
  | word (w : Word)
  | fails (c : HaltCause)
deriving DecidableEq, Repr

/-- `pc[1:0] = 0b00` (R30, R102). -/
def pcAligned (s : State) : Bool := decide (s.pc.extractLsb' 0 2 = 0#2)

/-- Alignment first, then range, then the little-endian word at `pc` (R102, R103, R104, R111). -/
def fetch (s : State) : Fetched :=
  if pcAligned s then
    if s.inRange s.pc 4 then .word (s.memRead s.pc 4) else .fails .fetchOutOfRange
  else .fails .fetchMisaligned

/-- `execute(w)` (R100): an illegal word halts with the word as info (R106), a legal one runs its rule. -/
def execute (w : Word) (s : State) : Host.Outcome State Fault Refusal :=
  match decode w with
  | .illegal _ => .next (halt .illegalInstruction w s)
  | .legal i => exec i s

/-- `step()` (R100), checks in R111's order. While HALTED it changes nothing (R101, D21). -/
def cycle (s : State) : Host.Outcome State Fault Refusal :=
  match s.hstate with
  | .halted => .next s
  | .running =>
    match fetch s with
    | .fails c => .next (halt c s.pc s)
    | .word w => execute w s

/-- `exec(word)` (R112): no memory read and no fetch range check; the alignment check stands. -/
def execWord (w : Word) (s : State) : Host.Outcome State Fault Refusal :=
  match s.hstate with
  | .halted => .next s
  | .running => if pcAligned s then execute w s else .next (halt .fetchMisaligned s.pc s)

/-! ## The rest of the host interface (R47, R65): accessors, and the host's own access to memory -/

/-- `get_pc()`. -/
def getPc (s : State) : Word := s.pc

/-- `is_halted()`. -/
def isHalted (s : State) : Bool := decide (s.hstate = .halted)

/-- `get_halt_reason()`. -/
def getHaltReason (s : State) : HaltCause × Word := (s.haltCause, s.haltInfo)

/-- `get_instruction_count()`. -/
def getInstructionCount (s : State) : BitVec 64 := s.icount

/-- `dump()`: the 32 register values, read through the register file (R23, R25). -/
def dump (s : State) : List Word := (List.range 32).map (fun i => s.readReg (BitVec.ofNat 5 i))

/-- The host's read of one byte between steps (R65); an address at or above `MEM_CAPACITY` names no byte (R51). -/
def hostPeek (a : Nat) (s : State) : Option Byte :=
  if a < s.cfg.memCapacity then some (Memory.read s.mem a) else none

/-- The host's write of one byte between steps (R65), as the loader of `MEM_INIT` does before the first. -/
def hostPoke (a : Nat) (b : Byte) (s : State) : State :=
  if a < s.cfg.memCapacity then { s with mem := Memory.write s.mem a b } else s

end Sys2Proof.Machine
end

