-- ==== Sys2Proof/Machine/Step.lean ====
section
/-! DEFINITION. The step (R100) and where a program's next word is placed. -/

namespace Sys2Proof.Machine

/-- One step of the machine: `step()` of R100. -/
def step (s : State) : Host.Outcome State Fault Refusal := cycle s

/-- `s` with the word of `w`'s low `nbits` bits stored little-endian at `pc`, where the next step fetches
(R104). Memory alone changes, and only where the four bytes exist (R54); it stands for the image the memory
collaborator loads (R53, log entry 5). -/
def State.withFetchWord (s : State) (nbits w : Nat) : State :=
  if s.inRange s.pc 4 then s.memWrite s.pc 4 (BitVec.ofNat 32 (w % 2 ^ nbits)) else s

end Sys2Proof.Machine
end

