-- ==== Sys2Proof/Safety.lean ====
section
/-! DEFINITION. What claims are stated in: what a state and its successor have in common, the shapes of an
instruction's result, which instructions may do what (R85's columns), and the invariant of the core's states. -/

namespace Sys2Proof.Machine

/-! ## What stays -/

/-- Every register reads as before. -/
def SameRegs (s t : State) : Prop := ∀ r : RegIdx, t.readReg r = s.readReg r

/-- Every byte of memory reads as before. -/
def SameMem (s t : State) : Prop := ∀ a : Nat, Memory.read t.mem a = Memory.read s.mem a

/-- Every CSR holds what it held, and the same addresses are registered. -/
def SameCsrs (s t : State) : Prop := ∀ a : CsrAddr, t.csrRead a = s.csrRead a

/-- The halt_fsm is as before. -/
def SameHalt (s t : State) : Prop :=
  t.hstate = s.hstate ∧ t.haltCause = s.haltCause ∧ t.haltInfo = s.haltInfo

/-- `x[rd]` holds `v` unless `rd` is `x0`, which reads 0 and discards the write; every other register reads
as before (R23). -/
def RegWritten (s t : State) (rd : RegIdx) (v : Word) : Prop :=
  ∀ r : RegIdx, t.readReg r = if r = 0#5 then 0#32 else if r = rd then v else s.readReg r

/-! ## Shapes of a result. `o` is the outcome of an instruction at `s`. `icount` is left to the statement
about it (R32), as every retiring instruction treats it alike. -/

/-- The instruction completes: `x[rd] <- v`, `pc <- pcNext`, and nothing else. -/
def WritesReg (o : Host.Outcome State Fault Refusal) (s : State) (rd : RegIdx) (v pcNext : Word) : Prop :=
  ∃ t, o = .next t ∧ RegWritten s t rd v ∧ t.pc = pcNext ∧
    SameMem s t ∧ SameCsrs s t ∧ SameHalt s t ∧ t.cfg = s.cfg

/-- The instruction completes: `pc <- pcNext`, and nothing else. -/
def OnlyMoves (o : Host.Outcome State Fault Refusal) (s : State) (pcNext : Word) : Prop :=
  ∃ t, o = .next t ∧ t.pc = pcNext ∧
    SameRegs s t ∧ SameMem s t ∧ SameCsrs s t ∧ SameHalt s t ∧ t.cfg = s.cfg

/-- The instruction completes: the low `n` bytes of `v` stand little-endian in the `n` bytes from `ea` on,
every other byte reads as before, `pc <- pc + 4`, and nothing else. -/
def StoresBytes (o : Host.Outcome State Fault Refusal) (s : State) (ea : Word) (n : Nat) (v : Word) : Prop :=
  ∃ t, o = .next t ∧ t.pc = s.pc + 4#32 ∧
    (∀ i : Nat, i < n → Memory.read t.mem (ea.toNat + i) = (v >>> (8 * i)).setWidth 8) ∧
    (∀ a : Nat, a < ea.toNat ∨ ea.toNat + n ≤ a → Memory.read t.mem a = Memory.read s.mem a) ∧
    SameRegs s t ∧ SameCsrs s t ∧ SameHalt s t ∧ t.cfg = s.cfg

/-- The instruction completes: `x[rd]` gets the CSR's old value, the CSR at `a` the new one, every other CSR
keeps its value, `pc <- pc + 4`, and nothing else. -/
def WritesCsr (o : Host.Outcome State Fault Refusal) (s : State) (rd : RegIdx) (a : CsrAddr) (old new : Word) : Prop :=
  ∃ t, o = .next t ∧ RegWritten s t rd old ∧ t.pc = s.pc + 4#32 ∧
    (∀ b : CsrAddr, t.csrRead b = if b = a then some new else s.csrRead b) ∧
    SameMem s t ∧ SameHalt s t ∧ t.cfg = s.cfg

/-- The core halts with the cause and the info, and nothing else changes: not even `pc` and `icount`. -/
def HaltsWith (o : Host.Outcome State Fault Refusal) (s : State) (c : HaltCause) (info : Word) : Prop :=
  ∃ t, o = .next t ∧ t.hstate = .halted ∧ t.haltCause = c ∧ t.haltInfo = info ∧
    t.pc = s.pc ∧ t.icount = s.icount ∧
    SameRegs s t ∧ SameMem s t ∧ SameCsrs s t ∧ t.cfg = s.cfg

/-- A load's rule (R130): in range it writes `v`, the extended value of the `n` bytes at `ea`, to `x[rd]`; out of
range it halts and writes nothing. -/
def LoadRule (i : Instr) (s : State) (rd : RegIdx) (ea : Word) (n : Nat) (v : Word) : Prop :=
  (ea.toNat + n ≤ s.cfg.memCapacity → WritesReg (exec i s) s rd v (s.pc + 4#32)) ∧
    (s.cfg.memCapacity < ea.toNat + n → HaltsWith (exec i s) s .loadOutOfRange ea)

/-- A store's rule (R136): in range it stores the low `n` bytes of `v` at `ea`; out of range it halts and stores no
byte. -/
def StoreRule (i : Instr) (s : State) (ea : Word) (n : Nat) (v : Word) : Prop :=
  (ea.toNat + n ≤ s.cfg.memCapacity → StoresBytes (exec i s) s ea n v) ∧
    (s.cfg.memCapacity < ea.toNat + n → HaltsWith (exec i s) s .storeOutOfRange ea)

/-- A CSR instruction's rule (R177): at a registered address the old value goes to `x[rd]` and `f old` to the CSR;
at an unregistered address it halts and changes no register and no CSR. -/
def CsrRule (i : Instr) (s : State) (rd : RegIdx) (a : CsrAddr) (f : Word → Word) : Prop :=
  (∀ old : Word, s.csrRead a = some old → WritesCsr (exec i s) s rd a old (f old)) ∧
    (s.csrRead a = none → HaltsWith (exec i s) s .csrUndefined (0#20 ++ a))

/-! ## Which instructions may do what (R85) -/

end Sys2Proof.Machine

namespace Sys2Proof

/-- The register an instruction names as destination: the column "writes rd" of R85. -/
def Instr.destReg : Instr → Option RegIdx
  | .lui rd _ => some rd
  | .auipc rd _ => some rd
  | .jal rd _ => some rd
  | .jalr rd _ _ => some rd
  | .beq _ _ _ => none
  | .bne _ _ _ => none
  | .blt _ _ _ => none
  | .bge _ _ _ => none
  | .bltu _ _ _ => none
  | .bgeu _ _ _ => none
  | .lb rd _ _ => some rd
  | .lh rd _ _ => some rd
  | .lw rd _ _ => some rd
  | .lbu rd _ _ => some rd
  | .lhu rd _ _ => some rd
  | .sb _ _ _ => none
  | .sh _ _ _ => none
  | .sw _ _ _ => none
  | .addi rd _ _ => some rd
  | .slti rd _ _ => some rd
  | .sltiu rd _ _ => some rd
  | .xori rd _ _ => some rd
  | .ori rd _ _ => some rd
  | .andi rd _ _ => some rd
  | .slli rd _ _ => some rd
  | .srli rd _ _ => some rd
  | .srai rd _ _ => some rd
  | .add rd _ _ => some rd
  | .sub rd _ _ => some rd
  | .sll rd _ _ => some rd
  | .slt rd _ _ => some rd
  | .sltu rd _ _ => some rd
  | .xor rd _ _ => some rd
  | .srl rd _ _ => some rd
  | .sra rd _ _ => some rd
  | .or rd _ _ => some rd
  | .and rd _ _ => some rd
  | .ecall => none
  | .ebreak => none
  | .csrrw rd _ _ => some rd
  | .csrrs rd _ _ => some rd
  | .csrrc rd _ _ => some rd
  | .csrrwi rd _ _ => some rd
  | .csrrsi rd _ _ => some rd
  | .csrrci rd _ _ => some rd

/-- A store's base register, offset and number of bytes (R136). -/
def Instr.storeForm : Instr → Option (RegIdx × BitVec 12 × Nat)
  | .sb rs1 _ imm => some (rs1, imm, 1)
  | .sh rs1 _ imm => some (rs1, imm, 2)
  | .sw rs1 _ imm => some (rs1, imm, 4)
  | _ => none

/-- A load's base register, offset and number of bytes (R130). -/
def Instr.loadForm : Instr → Option (RegIdx × BitVec 12 × Nat)
  | .lb _ rs1 imm => some (rs1, imm, 1)
  | .lh _ rs1 imm => some (rs1, imm, 2)
  | .lw _ rs1 imm => some (rs1, imm, 4)
  | .lbu _ rs1 imm => some (rs1, imm, 1)
  | .lhu _ rs1 imm => some (rs1, imm, 2)
  | _ => none

/-- The CSR a CSR instruction names (R177). -/
def Instr.csrAddr? : Instr → Option CsrAddr
  | .csrrw _ a _ => some a
  | .csrrs _ a _ => some a
  | .csrrc _ a _ => some a
  | .csrrwi _ a _ => some a
  | .csrrsi _ a _ => some a
  | .csrrci _ a _ => some a
  | _ => none

end Sys2Proof

namespace Sys2Proof.Machine

/-- The instruction transfers control at `s`: JAL, JALR, or a branch whose comparison holds (R108, R165). -/
def transfers (i : Instr) (s : State) : Prop :=
  match i with
  | .jal _ _ => True
  | .jalr _ _ _ => True
  | .beq a b _ => s.readReg a = s.readReg b
  | .bne a b _ => s.readReg a ≠ s.readReg b
  | .blt a b _ => (s.readReg a).toInt < (s.readReg b).toInt
  | .bge a b _ => (s.readReg b).toInt ≤ (s.readReg a).toInt
  | .bltu a b _ => (s.readReg a).toNat < (s.readReg b).toNat
  | .bgeu a b _ => (s.readReg b).toNat ≤ (s.readReg a).toNat
  | _ => False

/-- Where the instruction goes when it transfers control (R122, R123, R165); `pc + 4` for every other (R108). -/
def controlTarget (i : Instr) (s : State) : Word :=
  match i with
  | .jal _ off => s.pc + off.signExtend 32
  | .jalr _ a imm => (s.readReg a + imm.signExtend 32) &&& 0xFFFFFFFE#32
  | .beq _ _ off => s.pc + off.signExtend 32
  | .bne _ _ off => s.pc + off.signExtend 32
  | .blt _ _ off => s.pc + off.signExtend 32
  | .bge _ _ off => s.pc + off.signExtend 32
  | .bltu _ _ off => s.pc + off.signExtend 32
  | .bgeu _ _ off => s.pc + off.signExtend 32
  | _ => s.pc + 4#32

/-- The instruction's own halt condition at `s` and what it records (R191, R196): at most one. -/
def haltCondition (i : Instr) (s : State) : Option (HaltCause × Word) :=
  match i with
  | .ecall => some (.ecall, s.pc)
  | .ebreak => some (.ebreak, s.pc)
  | _ =>
    match i.loadForm, i.storeForm, i.csrAddr? with
    | some (rs1, imm, n), _, _ =>
      if (s.readReg rs1 + imm.signExtend 32).toNat + n ≤ s.cfg.memCapacity then none
      else some (.loadOutOfRange, s.readReg rs1 + imm.signExtend 32)
    | _, some (rs1, imm, n), _ =>
      if (s.readReg rs1 + imm.signExtend 32).toNat + n ≤ s.cfg.memCapacity then none
      else some (.storeOutOfRange, s.readReg rs1 + imm.signExtend 32)
    | _, _, some a => if s.csrRead a = none then some (.csrUndefined, a.setWidth 32) else none
    | _, _, _ => none

/-! ## The invariant -/

/-- RUNNING has cause NONE and info 0; HALTED has a cause (R34, R35, R36). -/
def haltCoherent (s : State) : Bool :=
  match s.hstate with
  | .running => decide (s.haltCause = .none) && decide (s.haltInfo = 0)
  | .halted => decide (s.haltCause ≠ .none)

/-- What holds of every state the core can reach: the parameters meet R10's constraints, memory is in its
canonical form and within the array (R51), the registered CSRs are the parameter's (R37), the unused cell of
`x0` holds 0 (R23), and the halt state is coherent. -/
def State.Inv (s : State) : Prop :=
  s.cfg.wf = true ∧ Memory.wf s.mem = true ∧ Memory.below s.cfg.memCapacity s.mem = true ∧
    s.csrs.map Prod.fst = s.cfg.csrReset.map Prod.fst ∧ s.regs[0] = 0 ∧ haltCoherent s = true

/-- The state with the halt_fsm back at its reset value, every other state kept. -/
def unhalted (s : State) : State := { s with hstate := .running, haltCause := .none, haltInfo := 0 }

/-- Halts are precise (R192): a HALTED state is what one step makes of the same state before it halted, so
nothing but the halt state was written and the recorded cause and info are those of the instruction at `pc`. -/
def haltPrecise (s : State) : Prop := s.hstate = .halted → step (unhalted s) = .next s

/-- What a recorded cause and info say of the core that halted with them (R191): for each cause the condition of
the step that raised it, at the `pc` it left in place. -/
def haltReasonTrue (s : State) : Prop :=
  match s.haltCause with
  | .none => False
  | .illegalInstruction =>
    s.haltInfo = s.memRead s.pc 4 ∧ ∃ r, decode (s.memRead s.pc 4) = .illegal r
  | .fetchMisaligned => s.haltInfo = s.pc ∧ s.pc.toNat % 4 ≠ 0
  | .fetchOutOfRange => s.haltInfo = s.pc ∧ s.pc.toNat % 4 = 0 ∧ s.cfg.memCapacity < s.pc.toNat + 4
  | .loadOutOfRange => ∃ i rs1 imm n, decode (s.memRead s.pc 4) = .legal i ∧ i.loadForm = some (rs1, imm, n) ∧
      s.haltInfo = s.readReg rs1 + imm.signExtend 32 ∧ s.cfg.memCapacity < s.haltInfo.toNat + n
  | .storeOutOfRange => ∃ i rs1 imm n, decode (s.memRead s.pc 4) = .legal i ∧ i.storeForm = some (rs1, imm, n) ∧
      s.haltInfo = s.readReg rs1 + imm.signExtend 32 ∧ s.cfg.memCapacity < s.haltInfo.toNat + n
  | .csrUndefined => ∃ i a, decode (s.memRead s.pc 4) = .legal i ∧ i.csrAddr? = some a ∧
      s.csrRead a = none ∧ s.haltInfo = 0#20 ++ a
  | .ecall => s.haltInfo = s.pc ∧ s.memRead s.pc 4 = 0x00000073#32
  | .ebreak => s.haltInfo = s.pc ∧ s.memRead s.pc 4 = 0x00100073#32

/-- The state after `n` steps, if none of them stops without a next state. -/
def runSteps (n : Nat) (s : State) : Host.Outcome State Fault Refusal := Host.Core.run Sys2Proof.core n s

end Sys2Proof.Machine
end

