-- ==== Sys2Proof/Certificates/Slice0/Obligations.lean ====
section
/-! DEFINITION. The statements for the provers. Each docstring names the rule or section of the spec it formalises.
`s` is any state, reachable or not, with any parameters in `s.cfg`; a premise on `s` is written out. The shapes
`WritesReg`, `OnlyMoves`, `StoresBytes`, `WritesCsr`, `HaltsWith` (Sys2Proof/Safety.lean) say that the outcome is a
next state, what it holds, and that all else is as before. -/

open Sys2Proof Sys2Proof.Machine

/-! ## Encoding and decoding -/

/-- Decoding the word of any well-formed instruction gives it back, with every operand (30_encoding.md, formats and
decode function). -/
def Obligations.DecodeOfEncodeIsTheInstruction : Prop :=
  ∀ i : Instr, i.wf = true → decode (encode i) = .legal i

/-- Every legal word is the word of the well-formed instruction it decodes to, so no bit of a legal word is dropped
and no two words are one instruction (30_encoding.md). -/
def Obligations.EncodeOfDecodeIsTheWord : Prop :=
  ∀ (w : Word) (i : Instr), decode w = .legal i → encode i = w ∧ i.wf = true

/-- A word decodes to a row's instruction exactly when it matches that row's pattern under its mask (the opcode
table; the table's own note: a word matching no row is illegal). -/
def Obligations.WordsDecodeByTheOpcodeTable : Prop :=
  ∀ w : Word,
    (∀ i, decode w = .legal i → ∃ row ∈ opcodeRows, row.mnemonic = i.mnemonic ∧ w &&& row.mask = row.pattern) ∧
    (∀ row ∈ opcodeRows, w &&& row.mask = row.pattern → ∃ i, decode w = .legal i ∧ i.mnemonic = row.mnemonic)

/-- The complete list of illegal words, item by item (30_encoding.md section 3, list of rule R90, with the spec's
own decisions D6 to D10). -/
def Obligations.IllegalWordsAreTheNineItems : Prop :=
  ∀ w : Word,
    (decode w = .illegal .unknownOpcode ↔
      opcode w ∉ [0x37#7, 0x17#7, 0x6F#7, 0x67#7, 0x63#7, 0x03#7, 0x23#7, 0x13#7, 0x33#7, 0x73#7]) ∧
    (decode w = .illegal .jalrFunct3 ↔ opcode w = 0x67#7 ∧ funct3 w ≠ 0b000#3) ∧
    (decode w = .illegal .loadFunct3 ↔ opcode w = 0x03#7 ∧ funct3 w ∈ [0b011#3, 0b110#3, 0b111#3]) ∧
    (decode w = .illegal .storeFunct3 ↔
      opcode w = 0x23#7 ∧ funct3 w ∈ [0b011#3, 0b100#3, 0b101#3, 0b110#3, 0b111#3]) ∧
    (decode w = .illegal .branchFunct3 ↔ opcode w = 0x63#7 ∧ funct3 w ∈ [0b010#3, 0b011#3]) ∧
    (decode w = .illegal .shiftFunct7 ↔ opcode w = 0x13#7 ∧
      ((funct3 w = 0b001#3 ∧ funct7 w ≠ 0b0000000#7) ∨
        (funct3 w = 0b101#3 ∧ funct7 w ∉ [0b0000000#7, 0b0100000#7]))) ∧
    (decode w = .illegal .aluFunct ↔ opcode w = 0x33#7 ∧
      funct7 w ≠ 0b0000000#7 ∧ ¬(funct7 w = 0b0100000#7 ∧ funct3 w ∈ [0b000#3, 0b101#3])) ∧
    (decode w = .illegal .systemWord ↔
      opcode w = 0x73#7 ∧ funct3 w = 0b000#3 ∧ w ∉ [0x00000073#32, 0x00100073#32]) ∧
    (decode w = .illegal .systemFunct3 ↔ opcode w = 0x73#7 ∧ funct3 w = 0b100#3) ∧
    decode w ≠ .illegal .truncated

/-- Words written out from the spec's encodings decode to the instructions they stand for (30_encoding.md, decode
examples, and the worked examples of the instruction files). -/
def Obligations.WrittenOutWordsDecode : Prop :=
  decode 0b00010001001000100011_00001_0110111#32 = .legal (.lui 1 0x11223) ∧
  decode 0b0_0000000100_0_00000000_00001_1101111#32 = .legal (.jal 1 8) ∧
  decode 0b1_111111_00000_00001_001_1100_1_1100011#32 = .legal (.bne 1 0 (-8)) ∧
  decode 0b111111111101_00010_010_00101_0000011#32 = .legal (.lw 5 2 (-3)) ∧
  decode 0b1111111_00110_00010_001_11111_0100011#32 = .legal (.sh 2 6 (-1)) ∧
  decode 0b0100000_00100_00001_101_00011_0010011#32 = .legal (.srai 3 1 4) ∧
  decode 0b0100000_00010_00001_000_00011_0110011#32 = .legal (.sub 3 1 2) ∧
  decode 0b001100000000_00001_001_00101_1110011#32 = .legal (.csrrw 5 0x300 1)

/-- The instruction of a byte sequence is that of its first four bytes, the first least significant, and the rest
stays (20_memory.md and 40_cycle.md, little-endian fetch). The second clause is the model's choice (log entry 13): the
spec's decoder takes whole words only (30_encoding.md section 1), and the model's, on fewer than four bytes, answers
ILLEGAL with its own reason `truncated` and gives the bytes back. -/
def Obligations.BytesDecodeLittleEndian : Prop :=
  (∀ (w : Word) (rest : List Byte),
    decodeBytes (w.extractLsb' 0 8 :: w.extractLsb' 8 8 :: w.extractLsb' 16 8 :: w.extractLsb' 24 8 :: rest) =
      (decode w, rest)) ∧
  (∀ bs : List Byte, bs.length < 4 → decodeBytes bs = (.illegal .truncated, bs))

/-! ## The step -/

/-- A RUNNING core whose `pc` is a multiple of 4 with four bytes in memory, which decode to `i`, steps by `exec i` at
that same state: the step adds nothing around it (40_cycle.md section 1). -/
def Obligations.StepRunsTheDecodedInstruction : Prop :=
  ∀ (s : State) (i : Instr), s.hstate = .running → s.pc.toNat % 4 = 0 → s.pc.toNat + 4 ≤ s.cfg.memCapacity →
    (decodeBytes [Memory.read s.mem s.pc.toNat, Memory.read s.mem (s.pc.toNat + 1),
      Memory.read s.mem (s.pc.toNat + 2), Memory.read s.mem (s.pc.toNat + 3)]).1 = .legal i →
    step s = exec i s

/-- A halt leads from RUNNING to HALTED (10_state.md section 4; D19). While HALTED neither the step, nor the host's
`exec(word)` (D22), nor the host's writes to memory leave it, and reset leads back to RUNNING: of the model's step and
host calls only reset (a launch is one) leaves HALTED. That a HALTED state has a step at all, which answers the same
state, is the model's choice (log entry 7: the spec, D21, allows also no step); that the host's calls are functions of
their own is too (log entry 16). -/
def Obligations.OnlyResetLeavesHalted : Prop :=
  ∀ s : State,
    (∀ (c : HaltCause) (info : Word), (halt c info s).hstate = .halted) ∧
    (s.hstate = .halted → step s = .next s) ∧
    (s.hstate = .halted → ∀ w : Word, execWord w s = .next s) ∧
    (s.hstate = .halted → ∀ (a : Nat) (b : Byte), (hostPoke a b s).hstate = .halted) ∧
    (resetCore s).hstate = .running

/-- R102: a step at a `pc` that is no multiple of 4 halts with FETCH_MISALIGNED and info `pc`; nothing else changes,
`pc` included, whether or not the address is in memory. -/
def Obligations.MisalignedFetchHalts : Prop :=
  ∀ s : State, s.hstate = .running → s.pc.toNat % 4 ≠ 0 → HaltsWith (step s) s .fetchMisaligned s.pc

/-- A step at an aligned `pc` whose four bytes are not all in memory halts with FETCH_OUT_OF_RANGE and info `pc`
(40_cycle.md section 2; the spec's own decision D5). -/
def Obligations.FetchOutOfRangeHalts : Prop :=
  ∀ s : State, s.hstate = .running → s.pc.toNat % 4 = 0 → s.cfg.memCapacity < s.pc.toNat + 4 →
    HaltsWith (step s) s .fetchOutOfRange s.pc

/-- R106: a step whose word decodes to ILLEGAL halts with ILLEGAL_INSTRUCTION and the word as info, leaving `pc`, all
registers and all memory unchanged. -/
def Obligations.IllegalWordHalts : Prop :=
  ∀ (s : State) (r : IllegalReason), s.hstate = .running → s.pc.toNat % 4 = 0 →
    s.pc.toNat + 4 ≤ s.cfg.memCapacity → decode (s.memRead s.pc 4) = .illegal r →
    HaltsWith (step s) s .illegalInstruction (s.memRead s.pc 4)

/-- R110: a halting step changes only the halt state. -/
def Obligations.HaltingStepChangesOnlyTheHaltState : Prop :=
  ∀ s t : State, s.hstate = .running → step s = .next t → t.hstate = .halted →
    t.pc = s.pc ∧ t.icount = s.icount ∧ SameRegs s t ∧ SameMem s t ∧ SameCsrs s t ∧ t.cfg = s.cfg

/-- Every step of every state has a next state: no fault, no refusal, no stop without a state. For RUNNING states this
is the model's inference from every synchronous exception being a halt (60_exceptions.md sections 1 and 2; log entry
6, DEDUCED); for HALTED states it is the model's choice (log entry 7: the spec, D21, allows also no step). -/
def Obligations.EveryStepHasANextState : Prop :=
  ∀ s : State, ∃ t, step s = .next t

/-- R108: an instruction that retires leaves `pc + 4`, unless it is JAL, JALR or a taken branch, which leaves its own
target. -/
def Obligations.RetiringInstructionsSetThePc : Prop :=
  ∀ (i : Instr) (s t : State), s.hstate = .running → exec i s = .next t → t.hstate = .running →
    (¬ transfers i s → t.pc = s.pc + 4#32) ∧ (transfers i s → t.pc = controlTarget i s)

/-- `icount` counts the retired steps: one more when a RUNNING core is still RUNNING after the step, the same when
the step halts or the core was HALTED (10_state.md section 3; the spec's own decision D20). That a HALTED state has a
step is the model's choice (log entry 7). -/
def Obligations.IcountCountsRetiredSteps : Prop :=
  ∀ s t : State, step s = .next t →
    t.icount = if s.hstate = .running ∧ t.hstate = .running then s.icount + 1#64 else s.icount

/-- No instruction writes a register it does not name as destination, and `x0` reads 0 after every instruction
(10_state.md section 2 and the column "writes rd" of the decode table). -/
def Obligations.OnlyTheNamedRegisterIsWritten : Prop :=
  ∀ (i : Instr) (s t : State), exec i s = .next t →
    t.readReg 0#5 = 0#32 ∧ ∀ r : RegIdx, i.destReg ≠ some r → t.readReg r = s.readReg r

/-- No instruction changes a byte of memory but a store, and a store none outside its `n` bytes at the effective
address (40_cycle.md section 4, 42_load_store.md section 2). -/
def Obligations.OnlyAStoresOwnBytesChange : Prop :=
  ∀ (i : Instr) (s t : State) (a : Nat), exec i s = .next t →
    (∀ rs1 imm n, i.storeForm = some (rs1, imm, n) →
      a < (effAddr rs1 imm s).toNat ∨ (effAddr rs1 imm s).toNat + n ≤ a) →
    Memory.read t.mem a = Memory.read s.mem a

/-- No instruction changes a CSR but a CSR instruction the one it names, and none registers or removes an address
(10_state.md section 5). -/
def Obligations.OnlyTheNamedCsrIsWritten : Prop :=
  ∀ (i : Instr) (s t : State) (a : CsrAddr), exec i s = .next t →
    (t.csrRead a).isSome = (s.csrRead a).isSome ∧ (i.csrAddr? ≠ some a → t.csrRead a = s.csrRead a)

/-- An instruction halts exactly on its own condition (a load or store out of range, an unregistered CSR, ECALL,
EBREAK), with the cause and info of that condition; otherwise it leaves the halt state alone (60_exceptions.md
sections 1 and 5; the spec's own decisions D15, D18, D19). -/
def Obligations.InstructionHaltsExactlyOnItsOwnCondition : Prop :=
  ∀ (i : Instr) (s : State),
    (∀ c info, haltCondition i s = some (c, info) → HaltsWith (exec i s) s c info) ∧
    (haltCondition i s = none → ∃ t, exec i s = .next t ∧ SameHalt s t)

/-! ## Upper-immediate and jump instructions -/

/-- R120 and R121: LUI writes the immediate in bits 31:12, AUIPC adds it to its own `pc`; both for every `rd`, `x0`
included, and from the words of their U format. -/
def Obligations.LuiAndAuipcWriteTheUpperImmediate : Prop :=
  ∀ (s : State) (rd : RegIdx) (imm : BitVec 20),
    WritesReg (exec (.lui rd imm) s) s rd (imm ++ 0#12) (s.pc + 4#32) ∧
    WritesReg (exec (.auipc rd imm) s) s rd (s.pc + (imm ++ 0#12)) (s.pc + 4#32) ∧
    decode (imm ++ rd ++ 0b0110111#7) = .legal (.lui rd imm) ∧
    decode (imm ++ rd ++ 0b0010111#7) = .legal (.auipc rd imm)

/-- JAL and JALR link `pc + 4` and go to their target, JAL to `pc + imm_j`, JALR to the old `x[rs1] + imm_i` with bit
0 cleared, for every target: one that is no multiple of 4 retires too (41_upper_jump.md; the spec's own decision
D32, and D8 for JALR's `funct3`). -/
def Obligations.JumpsLinkAndGoToTheirTarget : Prop :=
  ∀ (s : State) (rd rs1 : RegIdx),
    (∀ off : BitVec 21, WritesReg (exec (.jal rd off) s) s rd (s.pc + 4#32) (s.pc + off.signExtend 32)) ∧
    (∀ imm : BitVec 12, WritesReg (exec (.jalr rd rs1 imm) s) s rd (s.pc + 4#32)
      ((s.readReg rs1 + imm.signExtend 32) &&& 0xFFFFFFFE#32)) ∧
    (∀ (b20 : BitVec 1) (b10_1 : BitVec 10) (b11 : BitVec 1) (b19_12 : BitVec 8),
      decode (b20 ++ b10_1 ++ b11 ++ b19_12 ++ rd ++ 0b1101111#7) =
        .legal (.jal rd (b20 ++ b19_12 ++ b11 ++ b10_1 ++ 0#1))) ∧
    (∀ imm : BitVec 12, decode (imm ++ rs1 ++ 0b000#3 ++ rd ++ 0b1100111#7) = .legal (.jalr rd rs1 imm)) ∧
    (∀ (imm : BitVec 12) (f3 : BitVec 3), f3 ≠ 0b000#3 →
      decode (imm ++ rs1 ++ f3 ++ rd ++ 0b1100111#7) = .illegal .jalrFunct3)

/-! ## Conditional branches -/

/-- R166 to R171: each branch compares its registers and goes to its own `pc` plus the B-immediate or to `pc + 4`,
and writes no register and no memory; from the words of its B format. -/
def Obligations.BranchesCompareAndMove : Prop :=
  ∀ (s : State) (rs1 rs2 : RegIdx),
    (∀ off : BitVec 13,
      OnlyMoves (exec (.beq rs1 rs2 off) s) s
        (if s.readReg rs1 = s.readReg rs2 then s.pc + off.signExtend 32 else s.pc + 4#32) ∧
      OnlyMoves (exec (.bne rs1 rs2 off) s) s
        (if s.readReg rs1 ≠ s.readReg rs2 then s.pc + off.signExtend 32 else s.pc + 4#32) ∧
      OnlyMoves (exec (.blt rs1 rs2 off) s) s
        (if (s.readReg rs1).toInt < (s.readReg rs2).toInt then s.pc + off.signExtend 32 else s.pc + 4#32) ∧
      OnlyMoves (exec (.bge rs1 rs2 off) s) s
        (if (s.readReg rs1).toInt < (s.readReg rs2).toInt then s.pc + 4#32 else s.pc + off.signExtend 32) ∧
      OnlyMoves (exec (.bltu rs1 rs2 off) s) s
        (if (s.readReg rs1).toNat < (s.readReg rs2).toNat then s.pc + off.signExtend 32 else s.pc + 4#32) ∧
      OnlyMoves (exec (.bgeu rs1 rs2 off) s) s
        (if (s.readReg rs1).toNat < (s.readReg rs2).toNat then s.pc + 4#32 else s.pc + off.signExtend 32)) ∧
    (∀ (b12 : BitVec 1) (b10_5 : BitVec 6) (b4_1 : BitVec 4) (b11 : BitVec 1),
      decode (b12 ++ b10_5 ++ rs2 ++ rs1 ++ 0b000#3 ++ b4_1 ++ b11 ++ 0b1100011#7) =
        .legal (.beq rs1 rs2 (b12 ++ b11 ++ b10_5 ++ b4_1 ++ 0#1)) ∧
      decode (b12 ++ b10_5 ++ rs2 ++ rs1 ++ 0b001#3 ++ b4_1 ++ b11 ++ 0b1100011#7) =
        .legal (.bne rs1 rs2 (b12 ++ b11 ++ b10_5 ++ b4_1 ++ 0#1)) ∧
      decode (b12 ++ b10_5 ++ rs2 ++ rs1 ++ 0b100#3 ++ b4_1 ++ b11 ++ 0b1100011#7) =
        .legal (.blt rs1 rs2 (b12 ++ b11 ++ b10_5 ++ b4_1 ++ 0#1)) ∧
      decode (b12 ++ b10_5 ++ rs2 ++ rs1 ++ 0b101#3 ++ b4_1 ++ b11 ++ 0b1100011#7) =
        .legal (.bge rs1 rs2 (b12 ++ b11 ++ b10_5 ++ b4_1 ++ 0#1)) ∧
      decode (b12 ++ b10_5 ++ rs2 ++ rs1 ++ 0b110#3 ++ b4_1 ++ b11 ++ 0b1100011#7) =
        .legal (.bltu rs1 rs2 (b12 ++ b11 ++ b10_5 ++ b4_1 ++ 0#1)) ∧
      decode (b12 ++ b10_5 ++ rs2 ++ rs1 ++ 0b111#3 ++ b4_1 ++ b11 ++ 0b1100011#7) =
        .legal (.bgeu rs1 rs2 (b12 ++ b11 ++ b10_5 ++ b4_1 ++ 0#1)))

/-! ## Loads and stores -/

/-- R131 to R135: at `ea = x[rs1] + imm_i`, of any alignment, each load writes its bytes, extended as it says, to
`x[rd]`, or halts with LOAD_OUT_OF_RANGE and info `ea` where they are not all in memory; from the words of its I
format. -/
def Obligations.LoadsWriteTheExtendedBytesOrHalt : Prop :=
  ∀ (s : State) (rd rs1 : RegIdx) (imm : BitVec 12),
    effAddr rs1 imm s = s.readReg rs1 + imm.signExtend 32 ∧
    LoadRule (.lb rd rs1 imm) s rd (effAddr rs1 imm s) 1
      ((Memory.read s.mem (effAddr rs1 imm s).toNat).signExtend 32) ∧
    LoadRule (.lh rd rs1 imm) s rd (effAddr rs1 imm s) 2
      ((Memory.read s.mem ((effAddr rs1 imm s).toNat + 1) ++
        Memory.read s.mem (effAddr rs1 imm s).toNat).signExtend 32) ∧
    LoadRule (.lw rd rs1 imm) s rd (effAddr rs1 imm s) 4
      (Memory.read s.mem ((effAddr rs1 imm s).toNat + 3) ++ Memory.read s.mem ((effAddr rs1 imm s).toNat + 2) ++
        Memory.read s.mem ((effAddr rs1 imm s).toNat + 1) ++ Memory.read s.mem (effAddr rs1 imm s).toNat) ∧
    LoadRule (.lbu rd rs1 imm) s rd (effAddr rs1 imm s) 1
      (0#24 ++ Memory.read s.mem (effAddr rs1 imm s).toNat) ∧
    LoadRule (.lhu rd rs1 imm) s rd (effAddr rs1 imm s) 2
      (0#16 ++
        (Memory.read s.mem ((effAddr rs1 imm s).toNat + 1) ++ Memory.read s.mem (effAddr rs1 imm s).toNat)) ∧
    decode (imm ++ rs1 ++ 0b000#3 ++ rd ++ 0b0000011#7) = .legal (.lb rd rs1 imm) ∧
    decode (imm ++ rs1 ++ 0b001#3 ++ rd ++ 0b0000011#7) = .legal (.lh rd rs1 imm) ∧
    decode (imm ++ rs1 ++ 0b010#3 ++ rd ++ 0b0000011#7) = .legal (.lw rd rs1 imm) ∧
    decode (imm ++ rs1 ++ 0b100#3 ++ rd ++ 0b0000011#7) = .legal (.lbu rd rs1 imm) ∧
    decode (imm ++ rs1 ++ 0b101#3 ++ rd ++ 0b0000011#7) = .legal (.lhu rd rs1 imm)

/-- R137 to R139: at `ea = x[rs1] + imm_s`, of any alignment, each store writes the low bytes of `x[rs2]`, least
significant first, and no other byte, or halts with STORE_OUT_OF_RANGE and info `ea`, writing none, where they are
not all in memory; from the words of its S format. -/
def Obligations.StoresWriteTheLowBytesOrHalt : Prop :=
  ∀ (s : State) (rs1 rs2 : RegIdx) (imm : BitVec 12),
    effAddr rs1 imm s = s.readReg rs1 + imm.signExtend 32 ∧
    StoreRule (.sb rs1 rs2 imm) s (effAddr rs1 imm s) 1 (s.readReg rs2) ∧
    StoreRule (.sh rs1 rs2 imm) s (effAddr rs1 imm s) 2 (s.readReg rs2) ∧
    StoreRule (.sw rs1 rs2 imm) s (effAddr rs1 imm s) 4 (s.readReg rs2) ∧
    (∀ (hi : BitVec 7) (lo : BitVec 5),
      decode (hi ++ rs2 ++ rs1 ++ 0b000#3 ++ lo ++ 0b0100011#7) = .legal (.sb rs1 rs2 (hi ++ lo)) ∧
      decode (hi ++ rs2 ++ rs1 ++ 0b001#3 ++ lo ++ 0b0100011#7) = .legal (.sh rs1 rs2 (hi ++ lo)) ∧
      decode (hi ++ rs2 ++ rs1 ++ 0b010#3 ++ lo ++ 0b0100011#7) = .legal (.sw rs1 rs2 (hi ++ lo)))

/-! ## The alu -/

/-- R140: the alu's ten operations as arithmetic on unsigned and signed values and on bits; only bits 4:0 of `b` are a
shift amount. -/
def Obligations.AluComputesItsTable : Prop :=
  ∀ a b : Word,
    (alu .add a b).toNat = (a.toNat + b.toNat) % 2 ^ 32 ∧
    (alu .sub a b).toInt = (a.toInt - b.toInt).bmod (2 ^ 32) ∧
    (alu .sll a b).toNat = a.toNat * 2 ^ (b.toNat % 32) % 2 ^ 32 ∧
    (alu .slt a b).toNat = (if a.toInt < b.toInt then 1 else 0) ∧
    (alu .sltu a b).toNat = (if a.toNat < b.toNat then 1 else 0) ∧
    (∀ i : Nat, (alu .xor a b).getLsbD i = (a.getLsbD i != b.getLsbD i)) ∧
    (alu .srl a b).toNat = a.toNat / 2 ^ (b.toNat % 32) ∧
    (alu .sra a b).toInt = a.toInt / 2 ^ (b.toNat % 32) ∧
    (∀ i : Nat, (alu .or a b).getLsbD i = (a.getLsbD i || b.getLsbD i)) ∧
    (∀ i : Nat, (alu .and a b).getLsbD i = (a.getLsbD i && b.getLsbD i))

/-- R141 to R146: ADDI, SLTI, SLTIU, XORI, ORI, ANDI apply their operation to `x[rs1]` and the sign-extended immediate,
for every `rd`; from the words of their I format. -/
def Obligations.AluImmediateResults : Prop :=
  ∀ (s : State) (rd rs1 : RegIdx) (imm : BitVec 12),
    WritesReg (exec (.addi rd rs1 imm) s) s rd (s.readReg rs1 + imm.signExtend 32) (s.pc + 4#32) ∧
    WritesReg (exec (.slti rd rs1 imm) s) s rd
      (if (s.readReg rs1).toInt < imm.toInt then 1#32 else 0#32) (s.pc + 4#32) ∧
    WritesReg (exec (.sltiu rd rs1 imm) s) s rd
      (if (s.readReg rs1).toNat < (imm.signExtend 32).toNat then 1#32 else 0#32) (s.pc + 4#32) ∧
    WritesReg (exec (.xori rd rs1 imm) s) s rd (s.readReg rs1 ^^^ imm.signExtend 32) (s.pc + 4#32) ∧
    WritesReg (exec (.ori rd rs1 imm) s) s rd (s.readReg rs1 ||| imm.signExtend 32) (s.pc + 4#32) ∧
    WritesReg (exec (.andi rd rs1 imm) s) s rd (s.readReg rs1 &&& imm.signExtend 32) (s.pc + 4#32) ∧
    decode (imm ++ rs1 ++ 0b000#3 ++ rd ++ 0b0010011#7) = .legal (.addi rd rs1 imm) ∧
    decode (imm ++ rs1 ++ 0b010#3 ++ rd ++ 0b0010011#7) = .legal (.slti rd rs1 imm) ∧
    decode (imm ++ rs1 ++ 0b011#3 ++ rd ++ 0b0010011#7) = .legal (.sltiu rd rs1 imm) ∧
    decode (imm ++ rs1 ++ 0b100#3 ++ rd ++ 0b0010011#7) = .legal (.xori rd rs1 imm) ∧
    decode (imm ++ rs1 ++ 0b110#3 ++ rd ++ 0b0010011#7) = .legal (.ori rd rs1 imm) ∧
    decode (imm ++ rs1 ++ 0b111#3 ++ rd ++ 0b0010011#7) = .legal (.andi rd rs1 imm)

/-- R147 to R149: the immediate shifts, by every amount 0 to 31; from the words of their I-shift format, whose other
`funct7` values are illegal. -/
def Obligations.ImmediateShiftResults : Prop :=
  ∀ (s : State) (rd rs1 : RegIdx) (shamt : BitVec 5),
    WritesReg (exec (.slli rd rs1 shamt) s) s rd (s.readReg rs1 <<< shamt.toNat) (s.pc + 4#32) ∧
    WritesReg (exec (.srli rd rs1 shamt) s) s rd (s.readReg rs1 >>> shamt.toNat) (s.pc + 4#32) ∧
    WritesReg (exec (.srai rd rs1 shamt) s) s rd ((s.readReg rs1).sshiftRight shamt.toNat) (s.pc + 4#32) ∧
    decode (0b0000000#7 ++ shamt ++ rs1 ++ 0b001#3 ++ rd ++ 0b0010011#7) = .legal (.slli rd rs1 shamt) ∧
    decode (0b0000000#7 ++ shamt ++ rs1 ++ 0b101#3 ++ rd ++ 0b0010011#7) = .legal (.srli rd rs1 shamt) ∧
    decode (0b0100000#7 ++ shamt ++ rs1 ++ 0b101#3 ++ rd ++ 0b0010011#7) = .legal (.srai rd rs1 shamt) ∧
    (∀ f7 : BitVec 7, f7 ≠ 0b0000000#7 →
      decode (f7 ++ shamt ++ rs1 ++ 0b001#3 ++ rd ++ 0b0010011#7) = .illegal .shiftFunct7) ∧
    (∀ f7 : BitVec 7, f7 ≠ 0b0000000#7 → f7 ≠ 0b0100000#7 →
      decode (f7 ++ shamt ++ rs1 ++ 0b101#3 ++ rd ++ 0b0010011#7) = .illegal .shiftFunct7)

/-- R152, R153, R157, R160, R161: ADD, SUB, XOR, OR, AND on the old values of both registers, for every `rd`, equal to a
source or not; from the words of their R format, with R161's two illegal neighbours. -/
def Obligations.AluRegisterArithmeticAndLogicResults : Prop :=
  ∀ (s : State) (rd rs1 rs2 : RegIdx),
    WritesReg (exec (.add rd rs1 rs2) s) s rd (s.readReg rs1 + s.readReg rs2) (s.pc + 4#32) ∧
    WritesReg (exec (.sub rd rs1 rs2) s) s rd (s.readReg rs1 - s.readReg rs2) (s.pc + 4#32) ∧
    WritesReg (exec (.xor rd rs1 rs2) s) s rd (s.readReg rs1 ^^^ s.readReg rs2) (s.pc + 4#32) ∧
    WritesReg (exec (.or rd rs1 rs2) s) s rd (s.readReg rs1 ||| s.readReg rs2) (s.pc + 4#32) ∧
    WritesReg (exec (.and rd rs1 rs2) s) s rd (s.readReg rs1 &&& s.readReg rs2) (s.pc + 4#32) ∧
    decode (0b0000000#7 ++ rs2 ++ rs1 ++ 0b000#3 ++ rd ++ 0b0110011#7) = .legal (.add rd rs1 rs2) ∧
    decode (0b0100000#7 ++ rs2 ++ rs1 ++ 0b000#3 ++ rd ++ 0b0110011#7) = .legal (.sub rd rs1 rs2) ∧
    decode (0b0000000#7 ++ rs2 ++ rs1 ++ 0b100#3 ++ rd ++ 0b0110011#7) = .legal (.xor rd rs1 rs2) ∧
    decode (0b0000000#7 ++ rs2 ++ rs1 ++ 0b110#3 ++ rd ++ 0b0110011#7) = .legal (.or rd rs1 rs2) ∧
    decode (0b0000000#7 ++ rs2 ++ rs1 ++ 0b111#3 ++ rd ++ 0b0110011#7) = .legal (.and rd rs1 rs2) ∧
    decode 0x022081B3#32 = .illegal .aluFunct ∧ decode 0x402091B3#32 = .illegal .aluFunct

/-- R154, R155, R156, R158, R159: SLL, SRL, SRA by the low five bits of `x[rs2]` only, SLT signed and SLTU unsigned; from
the words of their R format. -/
def Obligations.AluRegisterShiftAndCompareResults : Prop :=
  ∀ (s : State) (rd rs1 rs2 : RegIdx),
    WritesReg (exec (.sll rd rs1 rs2) s) s rd (s.readReg rs1 <<< ((s.readReg rs2).toNat % 32)) (s.pc + 4#32) ∧
    WritesReg (exec (.srl rd rs1 rs2) s) s rd (s.readReg rs1 >>> ((s.readReg rs2).toNat % 32)) (s.pc + 4#32) ∧
    WritesReg (exec (.sra rd rs1 rs2) s) s rd
      ((s.readReg rs1).sshiftRight ((s.readReg rs2).toNat % 32)) (s.pc + 4#32) ∧
    WritesReg (exec (.slt rd rs1 rs2) s) s rd
      (if (s.readReg rs1).toInt < (s.readReg rs2).toInt then 1#32 else 0#32) (s.pc + 4#32) ∧
    WritesReg (exec (.sltu rd rs1 rs2) s) s rd
      (if (s.readReg rs1).toNat < (s.readReg rs2).toNat then 1#32 else 0#32) (s.pc + 4#32) ∧
    decode (0b0000000#7 ++ rs2 ++ rs1 ++ 0b001#3 ++ rd ++ 0b0110011#7) = .legal (.sll rd rs1 rs2) ∧
    decode (0b0000000#7 ++ rs2 ++ rs1 ++ 0b101#3 ++ rd ++ 0b0110011#7) = .legal (.srl rd rs1 rs2) ∧
    decode (0b0100000#7 ++ rs2 ++ rs1 ++ 0b101#3 ++ rd ++ 0b0110011#7) = .legal (.sra rd rs1 rs2) ∧
    decode (0b0000000#7 ++ rs2 ++ rs1 ++ 0b010#3 ++ rd ++ 0b0110011#7) = .legal (.slt rd rs1 rs2) ∧
    decode (0b0000000#7 ++ rs2 ++ rs1 ++ 0b011#3 ++ rd ++ 0b0110011#7) = .legal (.sltu rd rs1 rs2)

/-! ## SYSTEM instructions -/

/-- ECALL and EBREAK halt with their cause and info `pc` and change nothing else, `pc` included; each is one whole word
(46_system_csr.md section 1; the spec's own decisions D9 and D18). -/
def Obligations.EcallAndEbreakHaltInPlace : Prop :=
  ∀ s : State,
    HaltsWith (exec .ecall s) s .ecall s.pc ∧
    HaltsWith (exec .ebreak s) s .ebreak s.pc ∧
    (∀ w : Word, decode w = .legal .ecall ↔ w = 0x00000073#32) ∧
    (∀ w : Word, decode w = .legal .ebreak ↔ w = 0x00100073#32)

/-- R178 to R180: CSRRW, CSRRS, CSRRC write the old CSR value to `x[rd]` and `x[rs1]`, the set bits, the cleared bits to the
CSR, with `x[rs1]` read before, or halt with CSR_UNDEFINED and the address; from the words of their I-csr format. -/
def Obligations.CsrRegisterFormsReadAndModify : Prop :=
  ∀ (s : State) (rd rs1 : RegIdx) (a : CsrAddr),
    CsrRule (.csrrw rd a rs1) s rd a (fun _ => s.readReg rs1) ∧
    CsrRule (.csrrs rd a rs1) s rd a (fun old => old ||| s.readReg rs1) ∧
    CsrRule (.csrrc rd a rs1) s rd a (fun old => old &&& ~~~(s.readReg rs1)) ∧
    decode (a ++ rs1 ++ 0b001#3 ++ rd ++ 0b1110011#7) = .legal (.csrrw rd a rs1) ∧
    decode (a ++ rs1 ++ 0b010#3 ++ rd ++ 0b1110011#7) = .legal (.csrrs rd a rs1) ∧
    decode (a ++ rs1 ++ 0b011#3 ++ rd ++ 0b1110011#7) = .legal (.csrrc rd a rs1)

/-- R181 to R183: CSRRWI, CSRRSI, CSRRCI likewise with the zero-extended five-bit immediate. -/
def Obligations.CsrImmediateFormsReadAndModify : Prop :=
  ∀ (s : State) (rd : RegIdx) (z : BitVec 5) (a : CsrAddr),
    CsrRule (.csrrwi rd a z) s rd a (fun _ => 0#27 ++ z) ∧
    CsrRule (.csrrsi rd a z) s rd a (fun old => old ||| (0#27 ++ z)) ∧
    CsrRule (.csrrci rd a z) s rd a (fun old => old &&& ~~~(0#27 ++ z)) ∧
    decode (a ++ z ++ 0b101#3 ++ rd ++ 0b1110011#7) = .legal (.csrrwi rd a z) ∧
    decode (a ++ z ++ 0b110#3 ++ rd ++ 0b1110011#7) = .legal (.csrrsi rd a z) ∧
    decode (a ++ z ++ 0b111#3 ++ rd ++ 0b1110011#7) = .legal (.csrrci rd a z)

/-- The registered CSRs of a state that meets the invariant are those of the parameter CSR_SET, and the four addresses
0xF14, 0x300, 0x301, 0x342 are among them (10_state.md section 5). The invariant, and the map as a list, are the model's
(log entries 1 and 14). -/
def Obligations.RegisteredCsrsAreTheParameter : Prop :=
  ∀ s : State, s.Inv →
    (∀ a : CsrAddr, (s.csrRead a).isSome = true ↔ a ∈ s.cfg.csrReset.map Prod.fst) ∧
    (∀ a ∈ [0xF14#12, 0x300#12, 0x301#12, 0x342#12], (s.csrRead a).isSome = true)

/-- CSRRW on a registered address, then CSRRS with `rs1` = `x0`: the first gives the prior value, the second the value the
first installed, and leaves the CSR unchanged (46_system_csr.md section 2, the corner case of CSRRS; the source's
testable property). -/
def Obligations.CsrrsOfZeroReadsBackWhatCsrrwWrote : Prop :=
  ∀ (s : State) (rd rs1 rd' : RegIdx) (a : CsrAddr) (old : Word), s.csrRead a = some old → rd ≠ 0#5 → rd' ≠ 0#5 →
    ∃ t u, exec (.csrrw rd a rs1) s = .next t ∧ exec (.csrrs rd' a 0#5) t = .next u ∧
      t.readReg rd = old ∧ t.csrRead a = some (s.readReg rs1) ∧
      u.readReg rd' = s.readReg rs1 ∧ ∀ b : CsrAddr, u.csrRead b = t.csrRead b

/-! ## Memory -/

/-- The range check has no wrap: an access of `n` bytes is in range exactly when it lies within the capacity, so at
capacity minus `n` it is and one byte on it is not (20_memory.md section 2; the spec's own decision D4). -/
def Obligations.RangeCheckIsExact : Prop :=
  ∀ (s : State) (addr : Word) (n : Nat),
    (s.inRange addr n = true ↔ addr.toNat + n ≤ s.cfg.memCapacity) ∧
    (addr.toNat + n = s.cfg.memCapacity → s.inRange addr n = true) ∧
    (addr.toNat + n = s.cfg.memCapacity + 1 → s.inRange addr n = false)

/-- R57: a write of `n` bytes puts byte `i` of the value at `addr + i`, least significant first, and changes no other
byte. -/
def Obligations.MemWriteIsLittleEndian : Prop :=
  ∀ (m : Memory) (a n : Nat) (v : Word),
    (∀ i : Nat, i < n → Memory.read (Memory.writeLE m a v n) (a + i) = v.extractLsb' (8 * i) 8) ∧
    (∀ b : Nat, b < a ∨ a + n ≤ b → Memory.read (Memory.writeLE m a v n) b = Memory.read m b)

/-- Reading back what was written gives the low `n` bytes of it, for every width (20_memory.md section 3, the
round trip of the source's testable properties). -/
def Obligations.MemReadAfterMemWrite : Prop :=
  ∀ (m : Memory) (a n : Nat) (v : Word), n ≤ 4 →
    Memory.readLE (Memory.writeLE m a v n) a n = v.toNat % 2 ^ (8 * n)

/-- A store and then a load of the same width through the same base and offset give back the stored bytes
(20_memory.md section 3 and 42_load_store.md; the source's testable property). -/
def Obligations.StoreThenLoadGivesTheStoredValue : Prop :=
  ∀ (s : State) (rd rs1 rs2 : RegIdx) (imm : BitVec 12), rd ≠ 0#5 →
    ((effAddr rs1 imm s).toNat + 1 ≤ s.cfg.memCapacity →
      ∃ t u, exec (.sb rs1 rs2 imm) s = .next t ∧ exec (.lbu rd rs1 imm) t = .next u ∧
        u.readReg rd = s.readReg rs2 &&& 0x000000FF#32) ∧
    ((effAddr rs1 imm s).toNat + 2 ≤ s.cfg.memCapacity →
      ∃ t u, exec (.sh rs1 rs2 imm) s = .next t ∧ exec (.lhu rd rs1 imm) t = .next u ∧
        u.readReg rd = s.readReg rs2 &&& 0x0000FFFF#32) ∧
    ((effAddr rs1 imm s).toNat + 4 ≤ s.cfg.memCapacity →
      ∃ t u, exec (.sw rs1 rs2 imm) s = .next t ∧ exec (.lw rd rs1 imm) t = .next u ∧
        u.readReg rd = s.readReg rs2)

/-- Self-modifying code needs no fence: a word stored over the next instruction is the word the next step executes
(20_memory.md section 6, 70_reset_and_hazards.md section 3; the spec's own decision D24). -/
def Obligations.StoreOverTheNextInstructionIsExecuted : Prop :=
  ∀ (s : State) (rs1 rs2 : RegIdx) (imm : BitVec 12), s.hstate = .running → s.pc.toNat % 4 = 0 →
    effAddr rs1 imm s = s.pc + 4#32 → (effAddr rs1 imm s).toNat + 4 ≤ s.cfg.memCapacity →
    ∃ t, exec (.sw rs1 rs2 imm) s = .next t ∧ step t = execute (s.readReg rs2) t

/-- Every memory operation keeps the canonical form, and two memories in that form that read alike are one and the
same list (the model's own form, log entry 4). -/
def Obligations.CanonicalMemoriesAreEqualWhenTheyReadAlike : Prop :=
  (∀ (m : Memory) (a n : Nat) (v : Word), Memory.wf m = true → Memory.wf (Memory.writeLE m a v n) = true) ∧
  (∀ m m' : Memory, Memory.wf m = true → Memory.wf m' = true →
    (∀ a : Nat, Memory.read m a = Memory.read m' a) → m = m')

/-! ## Registers, halt state, reset and the host interface -/

/-- R23: `x0` reads 0 in every state, a write to it changes nothing, and a write to another register is read back there
and nowhere else. -/
def Obligations.RegisterZeroIsHardwired : Prop :=
  ∀ (s : State) (v : Word),
    s.readReg 0#5 = 0#32 ∧ s.writeReg 0#5 v = s ∧
    ∀ r q : RegIdx, r ≠ 0#5 → (s.writeReg r v).readReg q = if q = r then v else s.readReg q

/-- The codes of the halt causes are 0 to 8, each its own (10_state.md section 4, the table; the spec's own decision
D19). -/
def Obligations.HaltCausesHaveTheirCodes : Prop :=
  [HaltCause.none, .illegalInstruction, .fetchMisaligned, .fetchOutOfRange, .loadOutOfRange, .storeOutOfRange,
    .csrUndefined, .ecall, .ebreak].map (fun c => c.code.toNat) = [0, 1, 2, 3, 4, 5, 6, 7, 8] ∧
  ∀ c d : HaltCause, c.code = d.code → c = d

/-- Reset with the spec's default parameters: every register 0, `pc` 0, `icount` 0, RUNNING with cause NONE and info 0,
the four CSRs 0 and no other registered, every byte of memory 0 (10_state.md section 9; the parameters and the memory
contents are the model's choice, log entries 1 to 4). -/
def Obligations.ResetStateHoldsTheResetValues : Prop :=
  (∀ r : RegIdx, State.reset.readReg r = 0#32) ∧ State.reset.pc = 0#32 ∧ State.reset.icount = 0#64 ∧
  State.reset.hstate = .running ∧ State.reset.haltCause = .none ∧ State.reset.haltInfo = 0#32 ∧
  (∀ a : CsrAddr, State.reset.csrRead a =
    if a ∈ [0xF14#12, 0x300#12, 0x301#12, 0x342#12] then some 0#32 else none) ∧
  (∀ a : Nat, Memory.read State.reset.mem a = 0#8)

/-- Reset of any state sets every register and the halt state to their reset values, `pc` to RESET_PC, every CSR to
CSR_RESET, keeps memory, and leaves HALTED (70_reset_and_hazards.md section 1; the spec's own decisions D3, D14, D20,
D23, D29). The last clause is the model's: reset keeps the model's own invariant, whose form of memory, cell of `x0`,
CSR list and parameters field are choices of representation (log entries 4, 8, 14, 1). -/
def Obligations.ResetRestoresAllButMemory : Prop :=
  ∀ s : State,
    (∀ r : RegIdx, (resetCore s).readReg r = 0#32) ∧ (resetCore s).pc = s.cfg.resetPc ∧ (resetCore s).icount = 0#64 ∧
    (resetCore s).hstate = .running ∧ (resetCore s).haltCause = .none ∧ (resetCore s).haltInfo = 0#32 ∧
    (resetCore s).csrs = s.cfg.csrReset ∧ (resetCore s).mem = s.mem ∧ (resetCore s).cfg = s.cfg ∧
    (s.Inv → (resetCore s).Inv)

/-- The host's `exec(word)` does nothing while HALTED, halts on a misaligned `pc`, runs the word otherwise without the
fetch range check, and agrees with the step on the word at `pc` (40_cycle.md section 5; the spec's own decision D22).
That it answers the same state while HALTED, as the step does, is the model's choice (log entry 7). -/
def Obligations.ExecWordAgreesWithStep : Prop :=
  ∀ (s : State) (w : Word),
    (s.hstate = .halted → execWord w s = .next s) ∧
    (s.hstate = .running → s.pc.toNat % 4 ≠ 0 → HaltsWith (execWord w s) s .fetchMisaligned s.pc) ∧
    (s.hstate = .running → s.pc.toNat % 4 = 0 → execWord w s = execute w s) ∧
    (s.pc.toNat + 4 ≤ s.cfg.memCapacity → step s = execWord (s.memRead s.pc 4) s)

/-- A word placed with `withFetchWord` is the word the next step executes (log entry 5). -/
def Obligations.PlacedWordIsTheNextExecuted : Prop :=
  ∀ (s : State) (w : Word), s.hstate = .running → s.pc.toNat % 4 = 0 → s.pc.toNat + 4 ≤ s.cfg.memCapacity →
    step (s.withFetchWord 32 w.toNat) = execute w (s.withFetchWord 32 w.toNat)

/-! ## Whole-machine statements -/

/-- Reset, and a launch with any parameters and any memory image within the constraints, meet the invariant
(70_reset_and_hazards.md section 1; the invariant is the model's). -/
def Obligations.LaunchMeetsTheInvariant : Prop :=
  State.reset.Inv ∧
  ∀ (c : Config) (image : Memory), c.wf = true → Memory.wf image = true →
    Memory.below c.memCapacity image = true → (State.launch c image).Inv

/-- Every step keeps the model's invariant. From the spec: memory within the array (20_memory.md section 1), the
registered CSR set fixed (10_state.md section 5), cause and info as the halt state needs them (10_state.md section 4).
The model's own representation, each a choice: memory canonical (log entry 4), the cell of `x0` at 0 (log entry 8), the
CSRs as a list in the parameter's order (log entry 14), the parameters as a field of State, unchanged (log entry 1). -/
def Obligations.StepKeepsTheInvariant : Prop :=
  ∀ s t : State, s.Inv → step s = .next t → t.Inv ∧ t.cfg = s.cfg

/-- From every state that meets the model's invariant (log entries 1, 4, 8, 14), every number of steps runs without a stop
and ends in a state that meets it. That no step stops is the model's inference from every exception being a halt
(60_exceptions.md sections 1 and 2; log entry 6, DEDUCED), that a HALTED state steps to itself is its choice (log entry
7), and so is a run with no host call between its steps (log entry 16; unsafe for runs in which the host acts). -/
def Obligations.RunsNeverStopAndKeepTheInvariant : Prop :=
  ∀ (n : Nat) (s : State), s.Inv → ∃ t, runSteps n s = .next t ∧ t.Inv

/-- Halts are precise: once a state is RUNNING, or HALTED as one step of its own RUNNING form makes it, every later
state is; the halting instruction had no effect beyond the halt (60_exceptions.md section 2; the spec's own decisions
D18 and D19). The premise is the model's invariant (log entries 1, 4, 8, 14), and that a HALTED state steps to itself
is the model's choice (log entry 7). -/
def Obligations.HaltsArePrecise : Prop :=
  ∀ s t : State, s.Inv → haltPrecise s → step s = .next t → haltPrecise t

/-- A step that halts records the cause and the info of what made it halt, as the table of causes gives them
(60_exceptions.md section 1; the spec's own decision D19). -/
def Obligations.HaltReasonIsTrue : Prop :=
  ∀ s t : State, s.hstate = .running → step s = .next t → t.hstate = .halted → haltReasonTrue t

/-- No instruction can read `icount`: from states that differ in it alone, a step gives states that differ in it alone,
each counted on by the same amount (10_state.md section 3). -/
def Obligations.IcountIsInvisibleToPrograms : Prop :=
  ∀ (s t : State) (c : BitVec 64), step s = .next t →
    step { s with icount := c } = .next { t with icount := c + (t.icount - s.icount) }

/-- No CSR changes the behaviour of an instruction that is no CSR instruction: whatever the CSR map holds, the outcome
is the same but for the map (10_state.md section 5, 60_exceptions.md section 2). -/
def Obligations.CsrsDoNotAffectOtherInstructions : Prop :=
  ∀ (i : Instr) (s t : State) (m : List (CsrAddr × Word)), i.csrAddr? = none → exec i s = .next t →
    exec i { s with csrs := m } = .next { t with csrs := m }
end

