-- ==== Sys2Proof/Laws/Csr.lean ====
section
/-! SUPPORT. The laws of the CSR map (R37, R40). -/

namespace Sys2Proof.Machine

/-- A CSR read after a write: a registered address holds the new value, every other address what it held. -/
theorem csrFind_csrReplace (m : List (CsrAddr × Word)) (a b : CsrAddr) (x : Word) :
    csrFind (csrReplace m a x) b = if b = a ∧ (csrFind m a).isSome then some x else csrFind m b := by
  induction m with
  | nil => simp [csrReplace, csrFind]
  | cons c m ih =>
    obtain ⟨k, v⟩ := c
    by_cases hk : k = a
    · subst hk
      by_cases hb : b = k
      · subst hb; simp [csrReplace, csrFind]
      · have : k ≠ b := fun e => hb e.symm
        simp [csrReplace, csrFind, hb, this]
    · by_cases hkb : k = b
      · subst hkb; simp [csrReplace, csrFind, hk]
      · simp [csrReplace, csrFind, hk, hkb, ih]

/-- A write registers and removes no address. -/
@[simp] theorem csrReplace_addrs (m : List (CsrAddr × Word)) (a : CsrAddr) (x : Word) :
    (csrReplace m a x).map Prod.fst = m.map Prod.fst := by
  induction m with
  | nil => rfl
  | cons c m ih =>
    obtain ⟨k, v⟩ := c
    by_cases hk : k = a <;> simp [csrReplace, hk, ih]

/-- An address is registered exactly when it stands in the map. -/
theorem csrFind_isSome_iff (m : List (CsrAddr × Word)) (a : CsrAddr) :
    (csrFind m a).isSome ↔ a ∈ m.map Prod.fst := by
  induction m with
  | nil => simp [csrFind]
  | cons c m ih =>
    obtain ⟨k, v⟩ := c
    by_cases hk : k = a
    · simp [csrFind, hk]
    · have : a ≠ k := fun e => hk e.symm
      simp [csrFind, hk, ih, this]

end Sys2Proof.Machine
end

