-- ==== Sys2Proof/Laws/Decode.lean ====
section
/-! SUPPORT. Bit fields of appended bit fields, and from them the field each format's word gives back; a word as
its fields. -/

namespace Sys2Proof

/-! ## Bit fields of an append -/

/-- A field within the lower part. -/
theorem extract_append_low {v w : Nat} (x : BitVec v) (y : BitVec w) {start len : Nat} (h : start + len ≤ w) :
    (x ++ y).extractLsb' start len = y.extractLsb' start len := by
  apply BitVec.eq_of_getLsbD_eq
  intro i hi
  have : start + i < w := by omega
  simp [BitVec.getLsbD_append, hi, this]

/-- A field within the upper part. -/
theorem extract_append_high {v w : Nat} (x : BitVec v) (y : BitVec w) {start len : Nat} (h : w ≤ start) :
    (x ++ y).extractLsb' start len = x.extractLsb' (start - w) len := by
  apply BitVec.eq_of_getLsbD_eq
  intro i hi
  have : ¬ start + i < w := by omega
  simp [BitVec.getLsbD_append, hi, this, show start + i - w = start - w + i by omega]

/-- The whole value as a field. -/
theorem extract_full {n : Nat} (x : BitVec n) : x.extractLsb' 0 n = x := BitVec.extractLsb'_eq_self

/-- Two fields that lie next to each other are one. -/
theorem extract_append_extract {n a b c : Nat} (x : BitVec n) (s : Nat) (h : c = s + b) :
    x.extractLsb' c a ++ x.extractLsb' s b = x.extractLsb' s (a + b) := by
  subst h
  apply BitVec.eq_of_getLsbD_eq
  intro i hi
  simp only [BitVec.getLsbD_append, BitVec.getLsbD_extractLsb', hi]
  split
  · simp [*]
  · have : i - b < a := by omega
    simp [this, show s + b + (i - b) = s + i by omega]

/-- Appends of the same widths are equal exactly when their parts are. -/
theorem append_inj {v w : Nat} {x x' : BitVec v} {y y' : BitVec w} : x ++ y = x' ++ y' ↔ x = x' ∧ y = y' := by
  refine ⟨fun h => ⟨?_, ?_⟩, fun ⟨h, h'⟩ => by rw [h, h']⟩
  · have := congrArg (fun z => z.extractLsb' w v) h
    simpa only [extract_append_high _ _ (Nat.le_refl w), Nat.sub_self, extract_full] using this
  · have := congrArg (fun z => z.extractLsb' 0 w) h
    simpa only [extract_append_low _ _ (show 0 + w ≤ w by omega), extract_full] using this

/-- Masking an append masks its parts. -/
theorem append_and_append {v w : Nat} (x x' : BitVec v) (y y' : BitVec w) :
    (x ++ y) &&& (x' ++ y') = (x &&& x') ++ (y &&& y') := by
  apply BitVec.eq_of_getLsbD_eq
  intro i hi
  simp only [BitVec.getLsbD_and, BitVec.getLsbD_append]
  split <;> rfl

/-- Zeros appended above are the zero extension. -/
theorem zero_append_eq_setWidth {w : Nat} (k : Nat) (x : BitVec w) : 0#k ++ x = x.setWidth (k + w) := by
  apply BitVec.eq_of_getLsbD_eq
  intro i hi
  rw [BitVec.getLsbD_append, BitVec.getLsbD_setWidth]
  by_cases h : i < w
  · simp [h, hi]
  · simp [h, BitVec.getLsbD_of_ge x i (by omega)]

/-- A word is its fields (R71). -/
theorem word_eq_fields (w : Word) :
    w = funct7 w ++ rs2Field w ++ rs1Field w ++ funct3 w ++ rdField w ++ opcode w := by
  rw [funct7, rs2Field, rs1Field, funct3, rdField, opcode, extract_append_extract, extract_append_extract,
    extract_append_extract, extract_append_extract, extract_append_extract]
  · exact (extract_full w).symm
  all_goals decide

/-! ## The fields of each format (R72) -/

section
variable (f7 : BitVec 7) (rs2 rs1 : RegIdx) (f3 : BitVec 3) (rd : RegIdx) (opc : BitVec 7)

theorem opcode_encodeR : opcode (encodeR f7 rs2 rs1 f3 rd opc) = opc := by
  rw [opcode, encodeR, extract_append_low, extract_full]; decide
theorem rdField_encodeR : rdField (encodeR f7 rs2 rs1 f3 rd opc) = rd := by
  rw [rdField, encodeR, extract_append_high, extract_append_low, extract_full] <;> decide
theorem funct3_encodeR : funct3 (encodeR f7 rs2 rs1 f3 rd opc) = f3 := by
  rw [funct3, encodeR, extract_append_high, extract_append_high, extract_append_low, extract_full] <;> decide
theorem rs1Field_encodeR : rs1Field (encodeR f7 rs2 rs1 f3 rd opc) = rs1 := by
  rw [rs1Field, encodeR, extract_append_high, extract_append_high, extract_append_high, extract_append_low, extract_full] <;> decide
theorem rs2Field_encodeR : rs2Field (encodeR f7 rs2 rs1 f3 rd opc) = rs2 := by
  rw [rs2Field, encodeR, extract_append_high, extract_append_high, extract_append_high, extract_append_high, extract_append_low, extract_full] <;> decide
theorem funct7_encodeR : funct7 (encodeR f7 rs2 rs1 f3 rd opc) = f7 := by
  rw [funct7, encodeR, extract_append_high, extract_append_high, extract_append_high, extract_append_high, extract_append_high, extract_full] <;> decide
theorem fieldShamt_encodeR : fieldShamt (encodeR f7 rs2 rs1 f3 rd opc) = rs2 := by
  rw [fieldShamt, encodeR, extract_append_high, extract_append_high, extract_append_high, extract_append_high, extract_append_low, extract_full] <;> decide

end

section
variable (upper : BitVec 12) (rs1 : RegIdx) (f3 : BitVec 3) (rd : RegIdx) (opc : BitVec 7)

theorem opcode_encodeI : opcode (encodeI upper rs1 f3 rd opc) = opc := by
  rw [opcode, encodeI, extract_append_low, extract_full]; decide
theorem rdField_encodeI : rdField (encodeI upper rs1 f3 rd opc) = rd := by
  rw [rdField, encodeI, extract_append_high, extract_append_low, extract_full] <;> decide
theorem funct3_encodeI : funct3 (encodeI upper rs1 f3 rd opc) = f3 := by
  rw [funct3, encodeI, extract_append_high, extract_append_high, extract_append_low, extract_full] <;> decide
theorem rs1Field_encodeI : rs1Field (encodeI upper rs1 f3 rd opc) = rs1 := by
  rw [rs1Field, encodeI, extract_append_high, extract_append_high, extract_append_high, extract_append_low, extract_full] <;> decide
theorem fieldI_encodeI : fieldI (encodeI upper rs1 f3 rd opc) = upper := by
  rw [fieldI, encodeI, extract_append_high, extract_append_high, extract_append_high, extract_append_high, extract_full] <;> decide
theorem fieldCsr_encodeI : fieldCsr (encodeI upper rs1 f3 rd opc) = upper := by
  rw [fieldCsr, encodeI, extract_append_high, extract_append_high, extract_append_high, extract_append_high, extract_full] <;> decide
theorem fieldZimm_encodeI : fieldZimm (encodeI upper rs1 f3 rd opc) = rs1 := by
  rw [fieldZimm, encodeI, extract_append_high, extract_append_high, extract_append_high, extract_append_low, extract_full] <;> decide

end

section
variable (imm : BitVec 12) (rs2 rs1 : RegIdx) (f3 : BitVec 3) (opc : BitVec 7)

theorem opcode_encodeS : opcode (encodeS imm rs2 rs1 f3 opc) = opc := by
  rw [opcode, encodeS, extract_append_low, extract_full]; decide
theorem funct3_encodeS : funct3 (encodeS imm rs2 rs1 f3 opc) = f3 := by
  rw [funct3, encodeS, extract_append_high, extract_append_high, extract_append_low, extract_full] <;> decide
theorem rs1Field_encodeS : rs1Field (encodeS imm rs2 rs1 f3 opc) = rs1 := by
  rw [rs1Field, encodeS, extract_append_high, extract_append_high, extract_append_high, extract_append_low, extract_full] <;> decide
theorem rs2Field_encodeS : rs2Field (encodeS imm rs2 rs1 f3 opc) = rs2 := by
  rw [rs2Field, encodeS, extract_append_high, extract_append_high, extract_append_high, extract_append_high, extract_append_low, extract_full] <;> decide

theorem fieldS_encodeS : fieldS (encodeS imm rs2 rs1 f3 opc) = imm := by
  have hi : (encodeS imm rs2 rs1 f3 opc).extractLsb' 25 7 = imm.extractLsb' 5 7 := by
    rw [encodeS]
    repeat rw [extract_append_high _ _ (by decide)]
    exact extract_full _
  have lo : (encodeS imm rs2 rs1 f3 opc).extractLsb' 7 5 = imm.extractLsb' 0 5 := by
    rw [encodeS, extract_append_high, extract_append_low, extract_full] <;> decide
  rw [fieldS, hi, lo, extract_append_extract]
  · exact extract_full _
  · decide

end

section
variable (off : BitVec 13) (rs2 rs1 : RegIdx) (f3 : BitVec 3) (opc : BitVec 7)

theorem opcode_encodeB : opcode (encodeB off rs2 rs1 f3 opc) = opc := by
  rw [opcode, encodeB, extract_append_low, extract_full]; decide
theorem funct3_encodeB : funct3 (encodeB off rs2 rs1 f3 opc) = f3 := by
  rw [funct3, encodeB, extract_append_high, extract_append_high, extract_append_high, extract_append_low, extract_full] <;> decide
theorem rs1Field_encodeB : rs1Field (encodeB off rs2 rs1 f3 opc) = rs1 := by
  rw [rs1Field, encodeB, extract_append_high, extract_append_high, extract_append_high, extract_append_high, extract_append_low, extract_full] <;> decide
theorem rs2Field_encodeB : rs2Field (encodeB off rs2 rs1 f3 opc) = rs2 := by
  rw [rs2Field, encodeB, extract_append_high, extract_append_high, extract_append_high, extract_append_high, extract_append_high, extract_append_low, extract_full] <;> decide

theorem fieldB_encodeB (h : offsetEven13 off = true) : fieldB (encodeB off rs2 rs1 f3 opc) = off := by
  have h0 : off.extractLsb' 0 1 = 0#1 := by
    apply BitVec.eq_of_getLsbD_eq
    intro i hi
    obtain rfl : i = 0 := by omega
    simpa [offsetEven13, BitVec.getLsbD] using h
  have b12 : (encodeB off rs2 rs1 f3 opc).extractLsb' 31 1 = off.extractLsb' 12 1 := by
    rw [encodeB]
    repeat rw [extract_append_high _ _ (by decide)]
    exact extract_full _
  have b11 : (encodeB off rs2 rs1 f3 opc).extractLsb' 7 1 = off.extractLsb' 11 1 := by
    rw [encodeB, extract_append_high, extract_append_low, extract_full] <;> decide
  have b10_5 : (encodeB off rs2 rs1 f3 opc).extractLsb' 25 6 = off.extractLsb' 5 6 := by
    rw [encodeB, extract_append_high, extract_append_high, extract_append_high, extract_append_high,
      extract_append_high, extract_append_high, extract_append_low, extract_full] <;> decide
  have b4_1 : (encodeB off rs2 rs1 f3 opc).extractLsb' 8 4 = off.extractLsb' 1 4 := by
    rw [encodeB, extract_append_high, extract_append_high, extract_append_low, extract_full] <;> decide
  rw [fieldB, b12, b11, b10_5, b4_1, ← h0, extract_append_extract, extract_append_extract, extract_append_extract,
    extract_append_extract]
  · exact extract_full _
  all_goals decide

end

section
variable (imm : BitVec 20) (rd : RegIdx) (opc : BitVec 7)

theorem opcode_encodeU : opcode (encodeU imm rd opc) = opc := by
  rw [opcode, encodeU, extract_append_low, extract_full]; decide
theorem rdField_encodeU : rdField (encodeU imm rd opc) = rd := by
  rw [rdField, encodeU, extract_append_high, extract_append_low, extract_full] <;> decide
theorem fieldU_encodeU : fieldU (encodeU imm rd opc) = imm := by
  rw [fieldU, encodeU, extract_append_high, extract_append_high, extract_full] <;> decide

end

section
variable (off : BitVec 21) (rd : RegIdx) (opc : BitVec 7)

theorem opcode_encodeJ : opcode (encodeJ off rd opc) = opc := by
  rw [opcode, encodeJ, extract_append_low, extract_full]; decide
theorem rdField_encodeJ : rdField (encodeJ off rd opc) = rd := by
  rw [rdField, encodeJ, extract_append_high, extract_append_low, extract_full] <;> decide

theorem fieldJ_encodeJ (h : offsetEven21 off = true) : fieldJ (encodeJ off rd opc) = off := by
  have h0 : off.extractLsb' 0 1 = 0#1 := by
    apply BitVec.eq_of_getLsbD_eq
    intro i hi
    obtain rfl : i = 0 := by omega
    simpa [offsetEven21, BitVec.getLsbD] using h
  have b20 : (encodeJ off rd opc).extractLsb' 31 1 = off.extractLsb' 20 1 := by
    rw [encodeJ]
    repeat rw [extract_append_high _ _ (by decide)]
    exact extract_full _
  have b19_12 : (encodeJ off rd opc).extractLsb' 12 8 = off.extractLsb' 12 8 := by
    rw [encodeJ, extract_append_high, extract_append_high, extract_append_low, extract_full] <;> decide
  have b11 : (encodeJ off rd opc).extractLsb' 20 1 = off.extractLsb' 11 1 := by
    rw [encodeJ, extract_append_high, extract_append_high, extract_append_high, extract_append_low,
      extract_full] <;> decide
  have b10_1 : (encodeJ off rd opc).extractLsb' 21 10 = off.extractLsb' 1 10 := by
    rw [encodeJ, extract_append_high, extract_append_high, extract_append_high, extract_append_high,
      extract_append_low, extract_full] <;> decide
  rw [fieldJ, b20, b19_12, b11, b10_1, ← h0, extract_append_extract, extract_append_extract, extract_append_extract,
    extract_append_extract]
  · exact extract_full _
  all_goals decide

end

/-! ## A format's word under its rows' mask -/

/-- `funct7`, `funct3` and `opcode` are kept, the register fields cleared. -/
theorem mask_encodeR (f7 : BitVec 7) (rs2 rs1 : RegIdx) (f3 : BitVec 3) (rd : RegIdx) (opc : BitVec 7) :
    encodeR f7 rs2 rs1 f3 rd opc &&& 0xFE00707F#32 = encodeR f7 0#5 0#5 f3 0#5 opc := by
  rw [show 0xFE00707F#32 = 0x7F#7 ++ 0#5 ++ 0#5 ++ 7#3 ++ 0#5 ++ 0x7F#7 by decide, encodeR, append_and_append,
    append_and_append, append_and_append, append_and_append, append_and_append, encodeR,
    show f7 &&& 0x7F#7 = f7 from BitVec.and_allOnes, show f3 &&& 7#3 = f3 from BitVec.and_allOnes,
    show opc &&& 0x7F#7 = opc from BitVec.and_allOnes, BitVec.and_zero, BitVec.and_zero, BitVec.and_zero]

/-- `funct3` and `opcode` are kept, all else cleared. -/
theorem mask_fields (hi : BitVec 7) (rs2 rs1 : RegIdx) (f3 : BitVec 3) (lo : BitVec 5) (opc : BitVec 7) :
    encodeR hi rs2 rs1 f3 lo opc &&& 0x0000707F#32 = encodeR 0#7 0#5 0#5 f3 0#5 opc := by
  rw [show 0x0000707F#32 = 0#7 ++ 0#5 ++ 0#5 ++ 7#3 ++ 0#5 ++ 0x7F#7 by decide, encodeR, append_and_append,
    append_and_append, append_and_append, append_and_append, append_and_append, encodeR,
    show f3 &&& 7#3 = f3 from BitVec.and_allOnes, show opc &&& 0x7F#7 = opc from BitVec.and_allOnes,
    BitVec.and_zero, BitVec.and_zero, BitVec.and_zero, BitVec.and_zero]

/-- A word's `funct3` and `opcode` under the mask that keeps them. -/
theorem mask_funct3_opcode (w : Word) : w &&& 0x0000707F#32 = encodeR 0#7 0#5 0#5 (funct3 w) 0#5 (opcode w) := by
  rw [← mask_fields (funct7 w) (rs2Field w) (rs1Field w) (funct3 w) (rdField w) (opcode w), encodeR,
    ← word_eq_fields w]

/-- A word's `funct7`, `funct3` and `opcode` under the mask that keeps them. -/
theorem mask_funct7_funct3_opcode (w : Word) :
    w &&& 0xFE00707F#32 = encodeR (funct7 w) 0#5 0#5 (funct3 w) 0#5 (opcode w) := by
  rw [← mask_encodeR (funct7 w) (rs2Field w) (rs1Field w) (funct3 w) (rdField w) (opcode w), encodeR,
    ← word_eq_fields w]

/-- A word's `opcode` under the mask that keeps it. -/
theorem mask_opcode (w : Word) : w &&& 0x0000007F#32 = encodeR 0#7 0#5 0#5 0#3 0#5 (opcode w) := by
  conv_lhs => rw [word_eq_fields w]
  rw [show 0x0000007F#32 = 0#7 ++ 0#5 ++ 0#5 ++ 0#3 ++ 0#5 ++ 0x7F#7 by decide, append_and_append,
    append_and_append, append_and_append, append_and_append, append_and_append, encodeR,
    show opcode w &&& 0x7F#7 = opcode w from BitVec.and_allOnes, BitVec.and_zero, BitVec.and_zero, BitVec.and_zero,
    BitVec.and_zero, BitVec.and_zero]

theorem mask_encodeI (upper : BitVec 12) (rs1 : RegIdx) (f3 : BitVec 3) (rd : RegIdx) (opc : BitVec 7) :
    encodeI upper rs1 f3 rd opc &&& 0x0000707F#32 = encodeR 0#7 0#5 0#5 f3 0#5 opc := by
  rw [mask_funct3_opcode, funct3_encodeI, opcode_encodeI]

theorem mask_encodeS (imm : BitVec 12) (rs2 rs1 : RegIdx) (f3 : BitVec 3) (opc : BitVec 7) :
    encodeS imm rs2 rs1 f3 opc &&& 0x0000707F#32 = encodeR 0#7 0#5 0#5 f3 0#5 opc := by
  rw [mask_funct3_opcode, funct3_encodeS, opcode_encodeS]

theorem mask_encodeB (off : BitVec 13) (rs2 rs1 : RegIdx) (f3 : BitVec 3) (opc : BitVec 7) :
    encodeB off rs2 rs1 f3 opc &&& 0x0000707F#32 = encodeR 0#7 0#5 0#5 f3 0#5 opc := by
  rw [mask_funct3_opcode, funct3_encodeB, opcode_encodeB]

theorem mask_encodeU (imm : BitVec 20) (rd : RegIdx) (opc : BitVec 7) :
    encodeU imm rd opc &&& 0x0000007F#32 = encodeR 0#7 0#5 0#5 0#3 0#5 opc := by
  rw [mask_opcode, opcode_encodeU]

theorem mask_encodeJ (off : BitVec 21) (rd : RegIdx) (opc : BitVec 7) :
    encodeJ off rd opc &&& 0x0000007F#32 = encodeR 0#7 0#5 0#5 0#3 0#5 opc := by
  rw [mask_opcode, opcode_encodeJ]

/-! ## A word is the word of its own fields -/

theorem encodeR_fields (w : Word) :
    encodeR (funct7 w) (rs2Field w) (rs1Field w) (funct3 w) (rdField w) (opcode w) = w := (word_eq_fields w).symm

theorem encodeI_fields (w : Word) : encodeI (fieldI w) (rs1Field w) (funct3 w) (rdField w) (opcode w) = w := by
  rw [encodeI, fieldI, rs1Field, funct3, rdField, opcode, extract_append_extract, extract_append_extract,
    extract_append_extract, extract_append_extract]
  · exact extract_full _
  all_goals decide

theorem encodeS_fields (w : Word) : encodeS (fieldS w) (rs2Field w) (rs1Field w) (funct3 w) (opcode w) = w := by
  have hi : (fieldS w).extractLsb' 5 7 = funct7 w := by
    rw [fieldS, extract_append_high _ _ (by decide), extract_full, funct7]
  have lo : (fieldS w).extractLsb' 0 5 = rdField w := by
    rw [fieldS, extract_append_low _ _ (by decide), extract_full, rdField]
  rw [encodeS, hi, lo]
  exact encodeR_fields w

theorem encodeB_fields (w : Word) : encodeB (fieldB w) (rs2Field w) (rs1Field w) (funct3 w) (opcode w) = w := by
  have b12 : (fieldB w).extractLsb' 12 1 = w.extractLsb' 31 1 := by
    rw [fieldB]
    repeat rw [extract_append_high _ _ (by decide)]
    exact extract_full _
  have b11 : (fieldB w).extractLsb' 11 1 = w.extractLsb' 7 1 := by
    rw [fieldB, extract_append_high, extract_append_high, extract_append_high, extract_append_low,
      extract_full] <;> decide
  have b10_5 : (fieldB w).extractLsb' 5 6 = w.extractLsb' 25 6 := by
    rw [fieldB, extract_append_high, extract_append_high, extract_append_low, extract_full] <;> decide
  have b4_1 : (fieldB w).extractLsb' 1 4 = w.extractLsb' 8 4 := by
    rw [fieldB, extract_append_high, extract_append_low, extract_full] <;> decide
  rw [encodeB, b12, b11, b10_5, b4_1, rs2Field, rs1Field, funct3, opcode]
  repeat rw [extract_append_extract _ _ (by decide)]
  exact extract_full _

theorem encodeU_fields (w : Word) : encodeU (fieldU w) (rdField w) (opcode w) = w := by
  rw [encodeU, fieldU, rdField, opcode, extract_append_extract, extract_append_extract]
  · exact extract_full _
  all_goals decide

theorem encodeJ_fields (w : Word) : encodeJ (fieldJ w) (rdField w) (opcode w) = w := by
  have b20 : (fieldJ w).extractLsb' 20 1 = w.extractLsb' 31 1 := by
    rw [fieldJ]
    repeat rw [extract_append_high _ _ (by decide)]
    exact extract_full _
  have b19_12 : (fieldJ w).extractLsb' 12 8 = w.extractLsb' 12 8 := by
    rw [fieldJ, extract_append_high, extract_append_high, extract_append_high, extract_append_low,
      extract_full] <;> decide
  have b11 : (fieldJ w).extractLsb' 11 1 = w.extractLsb' 20 1 := by
    rw [fieldJ, extract_append_high, extract_append_high, extract_append_low, extract_full] <;> decide
  have b10_1 : (fieldJ w).extractLsb' 1 10 = w.extractLsb' 21 10 := by
    rw [fieldJ, extract_append_high, extract_append_low, extract_full] <;> decide
  rw [encodeJ, b20, b19_12, b11, b10_1, rdField, opcode]
  repeat rw [extract_append_extract _ _ (by decide)]
  exact extract_full _

/-- A zero appended below is bit 0. -/
theorem getLsbD_append_zero {n : Nat} (x : BitVec n) : (x ++ 0#1).getLsbD 0 = false := by
  rw [BitVec.getLsbD_append]
  rfl

theorem offsetEven13_fieldB (w : Word) : offsetEven13 (fieldB w) = true := by
  have h : (fieldB w).getLsbD 0 = false := getLsbD_append_zero
    (w.extractLsb' 31 1 ++ w.extractLsb' 7 1 ++ w.extractLsb' 25 6 ++ w.extractLsb' 8 4)
  show (!(fieldB w).getLsbD 0) = true
  rw [h]
  rfl

theorem offsetEven21_fieldJ (w : Word) : offsetEven21 (fieldJ w) = true := by
  have h : (fieldJ w).getLsbD 0 = false := getLsbD_append_zero
    (w.extractLsb' 31 1 ++ w.extractLsb' 12 8 ++ w.extractLsb' 20 1 ++ w.extractLsb' 21 10)
  show (!(fieldJ w).getLsbD 0) = true
  rw [h]
  rfl

/-! ## When a word matches a row -/

/-- Two patterns of the table's fixed bits are equal exactly when their fields are. -/
theorem encodeR_zero_inj {f f' : BitVec 7} {g g' : BitVec 3} {o o' : BitVec 7} :
    encodeR f 0#5 0#5 g 0#5 o = encodeR f' 0#5 0#5 g' 0#5 o' ↔ f = f' ∧ g = g' ∧ o = o' := by
  refine ⟨fun h => ?_, by rintro ⟨rfl, rfl, rfl⟩; rfl⟩
  obtain ⟨h, ho⟩ := append_inj.mp (show f ++ 0#5 ++ 0#5 ++ g ++ 0#5 ++ o = f' ++ 0#5 ++ 0#5 ++ g' ++ 0#5 ++ o' from h)
  obtain ⟨h, -⟩ := append_inj.mp h
  obtain ⟨h, hg⟩ := append_inj.mp h
  obtain ⟨h, -⟩ := append_inj.mp h
  exact ⟨(append_inj.mp h).1, hg, ho⟩

theorem match_funct7_iff {w p : Word} {f : BitVec 7} {g : BitVec 3} {o : BitVec 7}
    (h : p = encodeR f 0#5 0#5 g 0#5 o) : w &&& 0xFE00707F#32 = p ↔ funct7 w = f ∧ funct3 w = g ∧ opcode w = o := by
  rw [h, mask_funct7_funct3_opcode, encodeR_zero_inj]

theorem match_funct3_iff {w p : Word} {g : BitVec 3} {o : BitVec 7} (h : p = encodeR 0#7 0#5 0#5 g 0#5 o) :
    w &&& 0x0000707F#32 = p ↔ funct3 w = g ∧ opcode w = o := by
  rw [h, mask_funct3_opcode, encodeR_zero_inj]
  exact and_iff_right rfl

theorem match_opcode_iff {w p : Word} {o : BitVec 7} (h : p = encodeR 0#7 0#5 0#5 0#3 0#5 o) :
    w &&& 0x0000007F#32 = p ↔ opcode w = o := by
  rw [h, mask_opcode, encodeR_zero_inj]
  exact ⟨fun h => h.2.2, fun h => ⟨rfl, rfl, h⟩⟩

end Sys2Proof
end

