-- ==== Sys2Proof/Laws/Operands.lean ====
section
/-! SUPPORT. The operand forms and the alu in plain arithmetic. -/

namespace Sys2Proof.Machine

/-- The shift amount is the low five bits as a number (R140). -/
theorem shiftAmount_eq (b : Word) : shiftAmount b = b.toNat % 32 := by
  simp [shiftAmount]

/-- An immediate shift's amount is its five-bit field (R78). -/
theorem shiftAmount_immShamt (shamt : BitVec 5) : shiftAmount (immShamt shamt) = shamt.toNat := by
  have h := shamt.isLt
  rw [shiftAmount_eq, immShamt, BitVec.toNat_setWidth]
  omega

/-- Sign extension keeps the signed value (R73). -/
theorem toInt_imm12 (imm : BitVec 12) : (imm12 imm).toInt = imm.toInt :=
  BitVec.toInt_signExtend_of_le (by decide)

/-- The signed comparison's result (R140). -/
theorem alu_slt (a b : Word) : alu .slt a b = if a.toInt < b.toInt then 1#32 else 0#32 := by
  by_cases h : a.toInt < b.toInt <;> simp [alu, oneIf, h]

/-- The unsigned comparison's result (R140). -/
theorem alu_sltu (a b : Word) : alu .sltu a b = if a.toNat < b.toNat then 1#32 else 0#32 := by
  by_cases h : a.toNat < b.toNat <;> simp [alu, oneIf, h]

end Sys2Proof.Machine
end

