-- ==== Sys2Proof/Laws/Memory.lean ====
section
/-! SUPPORT. The laws of memory: reads after writes, the canonical form kept by every operation, the array's
bound kept, and the multi-byte access in terms of bytes (R56, R57). -/

namespace Sys2Proof.Machine

/-! ## One byte -/

theorem Memory.read_erase (m : Memory) (a b : Nat) :
    Memory.read (Memory.erase m a) b = if b = a then Memory.unlisted else Memory.read m b := by
  induction m with
  | nil => simp [Memory.erase, Memory.read]
  | cons c m ih =>
    obtain ⟨k, v⟩ := c
    by_cases hk : k = a
    · subst hk
      by_cases hb : b = k
      · subst hb; simp [Memory.erase, ih]
      · have hkb : k ≠ b := fun e => hb e.symm
        simp [Memory.erase, Memory.read, ih, hb, hkb]
    · by_cases hkb : k = b
      · subst hkb; simp [Memory.erase, Memory.read, hk]
      · simp [Memory.erase, Memory.read, hk, hkb, ih]

theorem Memory.read_insert (m : Memory) (a b : Nat) (v : Byte) (h : Memory.read m a = Memory.unlisted)
    (hne : ∀ c ∈ m, c.1 ≠ a) :
    Memory.read (Memory.insert m a v) b = if b = a then v else Memory.read m b := by
  induction m with
  | nil => simp only [Memory.insert, Memory.read, eq_comm]
  | cons c m ih =>
    obtain ⟨k, x⟩ := c
    have hk : k ≠ a := hne (k, x) (by simp)
    have ih' := ih (by simpa [Memory.read, hk] using h) (fun c hc => hne c (by simp [hc]))
    by_cases hlt : a < k
    · simp only [Memory.insert, hlt, ↓reduceIte, Memory.read, eq_comm]
    · by_cases hkb : k = b
      · subst hkb; simp [Memory.insert, Memory.read, hlt, hk]
      · simp [Memory.insert, Memory.read, hlt, hkb, ih']

theorem Memory.ne_of_mem_erase (m : Memory) (a : Nat) : ∀ c ∈ Memory.erase m a, c.1 ≠ a := by
  induction m with
  | nil => simp [Memory.erase]
  | cons c m ih =>
    obtain ⟨k, v⟩ := c
    by_cases hk : k = a
    · simpa [Memory.erase, hk] using ih
    · intro c hc
      simp only [Memory.erase, hk, ↓reduceIte, List.mem_cons] at hc
      rcases hc with rfl | hc
      · exact hk
      · exact ih c hc

/-- A read after a write: the written byte at its address, every other byte as before. No form of the memory
is assumed. -/
theorem Memory.read_write (m : Memory) (a b : Nat) (v : Byte) :
    Memory.read (Memory.write m a v) b = if b = a then v else Memory.read m b := by
  by_cases hv : v = Memory.unlisted
  · simp [Memory.write, hv, Memory.read_erase]
  · rw [Memory.write, if_neg hv, Memory.read_insert _ _ _ _ (by simp [Memory.read_erase]) (Memory.ne_of_mem_erase m a),
      Memory.read_erase]
    by_cases hb : b = a <;> simp [hb]

/-! ## The canonical form -/

theorem Memory.wfFrom_mono {m : Memory} {lo hi : Nat} (h : lo ≤ hi) (hm : Memory.wfFrom hi m = true) :
    Memory.wfFrom lo m = true := by
  cases m with
  | nil => rfl
  | cons c m =>
    simp only [Memory.wfFrom, Bool.and_eq_true, decide_eq_true_eq] at hm ⊢
    exact ⟨⟨le_trans h hm.1.1, hm.1.2⟩, hm.2⟩

theorem Memory.wfFrom_erase {m : Memory} {lo : Nat} (a : Nat) (h : Memory.wfFrom lo m = true) :
    Memory.wfFrom lo (Memory.erase m a) = true := by
  induction m generalizing lo with
  | nil => rfl
  | cons c m ih =>
    simp only [Memory.wfFrom, Bool.and_eq_true, decide_eq_true_eq] at h
    by_cases hk : c.1 = a
    · simp only [Memory.erase, hk, ↓reduceIte]
      exact Memory.wfFrom_mono (by omega) (ih h.2)
    · simp only [Memory.erase, hk, ↓reduceIte, Memory.wfFrom, Bool.and_eq_true, decide_eq_true_eq]
      exact ⟨h.1, ih h.2⟩

theorem Memory.wfFrom_insert {m : Memory} {lo a : Nat} {v : Byte} (hlo : lo ≤ a) (hv : v ≠ Memory.unlisted)
    (hne : ∀ c ∈ m, c.1 ≠ a) (h : Memory.wfFrom lo m = true) :
    Memory.wfFrom lo (Memory.insert m a v) = true := by
  induction m generalizing lo with
  | nil => simp [Memory.insert, Memory.wfFrom, hlo, hv]
  | cons c m ih =>
    have hk : c.1 ≠ a := hne c (by simp)
    simp only [Memory.wfFrom, Bool.and_eq_true, decide_eq_true_eq] at h
    by_cases hlt : a < c.1
    · simp only [Memory.insert, hlt, ↓reduceIte, Memory.wfFrom, Bool.and_eq_true, decide_eq_true_eq]
      exact ⟨⟨hlo, hv⟩, ⟨by omega, h.1.2⟩, h.2⟩
    · simp only [Memory.insert, hlt, ↓reduceIte, Memory.wfFrom, Bool.and_eq_true, decide_eq_true_eq]
      exact ⟨h.1, ih (by omega) (fun c hc => hne c (by simp [hc])) h.2⟩

/-- Writing a byte keeps the canonical form. -/
theorem Memory.wf_write {m : Memory} (a : Nat) (v : Byte) (h : Memory.wf m = true) :
    Memory.wf (Memory.write m a v) = true := by
  have he := Memory.wfFrom_erase a h
  by_cases hv : v = Memory.unlisted
  · simpa [Memory.write, hv, Memory.wf] using he
  · simpa [Memory.write, hv, Memory.wf] using
      Memory.wfFrom_insert (Nat.zero_le a) hv (Memory.ne_of_mem_erase m a) he

/-! ## The array's bound -/

theorem Memory.mem_of_mem_erase {m : Memory} {a : Nat} : ∀ c ∈ Memory.erase m a, c ∈ m := by
  induction m with
  | nil => simp [Memory.erase]
  | cons d m ih =>
    intro c hc
    by_cases hk : d.1 = a
    · rw [Memory.erase, if_pos hk] at hc
      exact List.mem_cons_of_mem _ (ih c hc)
    · rw [Memory.erase, if_neg hk, List.mem_cons] at hc
      rcases hc with h | hc
      · subst h; exact List.mem_cons_self
      · exact List.mem_cons_of_mem _ (ih c hc)

theorem Memory.mem_insert {m : Memory} {a : Nat} {v : Byte} :
    ∀ c ∈ Memory.insert m a v, c = (a, v) ∨ c ∈ m := by
  induction m with
  | nil => simp [Memory.insert]
  | cons d m ih =>
    intro c hc
    by_cases hlt : a < d.1
    · rw [Memory.insert, if_pos hlt, List.mem_cons] at hc
      exact hc
    · rw [Memory.insert, if_neg hlt, List.mem_cons] at hc
      rcases hc with h | hc
      · subst h; exact .inr List.mem_cons_self
      · exact (ih c hc).imp id (List.mem_cons_of_mem _)

/-- Writing a byte of the array keeps every cell within it. -/
theorem Memory.below_write {m : Memory} {cap a : Nat} (v : Byte) (ha : a < cap)
    (h : Memory.below cap m = true) : Memory.below cap (Memory.write m a v) = true := by
  simp only [Memory.below, List.all_eq_true, decide_eq_true_eq] at h ⊢
  intro c hc
  by_cases hv : v = Memory.unlisted
  · rw [Memory.write, if_pos hv] at hc
    exact h c (Memory.mem_of_mem_erase c hc)
  · rw [Memory.write, if_neg hv] at hc
    rcases Memory.mem_insert c hc with rfl | hc
    · exact ha
    · exact h c (Memory.mem_of_mem_erase c hc)

/-! ## Several bytes -/

/-- After `MemWrite(a, n, v)` byte `a + i` holds `v[8i+7:8i]` for `i < n`, and every other byte what it held
(R57). -/
theorem Memory.read_writeLE (m : Memory) (a : Nat) (v : Word) (n b : Nat) :
    Memory.read (Memory.writeLE m a v n) b =
      if a ≤ b ∧ b < a + n then v.extractLsb' (8 * (b - a)) 8 else Memory.read m b := by
  induction n with
  | zero =>
    have h : ¬(a ≤ b ∧ b < a + 0) := by omega
    rw [Memory.writeLE, if_neg h]
  | succ n ih =>
    rw [Memory.writeLE, Memory.read_write, ih]
    by_cases hb : b = a + n
    · subst hb; simp
    · have : (a ≤ b ∧ b < a + (n + 1)) ↔ (a ≤ b ∧ b < a + n) := by omega
      simp only [hb, ↓reduceIte, this]

/-- `MemRead` depends only on the `n` bytes it reads (R56). -/
theorem Memory.readLE_congr {m m' : Memory} {a n : Nat}
    (h : ∀ b, a ≤ b → b < a + n → Memory.read m' b = Memory.read m b) :
    Memory.readLE m' a n = Memory.readLE m a n := by
  induction n with
  | zero => rfl
  | succ n ih =>
    rw [Memory.readLE, Memory.readLE, ih (fun b h1 h2 => h b h1 (by omega)), h (a + n) (by omega) (by omega)]

/-- An `n`-byte value is less than `2^(8n)`. -/
theorem Memory.readLE_lt (m : Memory) (a n : Nat) : Memory.readLE m a n < 2 ^ (8 * n) := by
  induction n with
  | zero => simp [Memory.readLE]
  | succ n ih =>
    have hb := (Memory.read m (a + n)).isLt
    rw [Memory.readLE, show 8 * (n + 1) = 8 + 8 * n by ring, pow_add]
    have hx : (Memory.read m (a + n)).toNat * 2 ^ (8 * n) ≤ (2 ^ 8 - 1) * 2 ^ (8 * n) :=
      Nat.mul_le_mul_right _ (by omega)
    have hy : (2 ^ 8 - 1) * 2 ^ (8 * n) + 2 ^ (8 * n) = 2 ^ 8 * 2 ^ (8 * n) := by ring_nf
    omega

/-- `MemWrite` keeps the canonical form. -/
theorem Memory.wf_writeLE {m : Memory} (a : Nat) (v : Word) (n : Nat) (h : Memory.wf m = true) :
    Memory.wf (Memory.writeLE m a v n) = true := by
  induction n with
  | zero => exact h
  | succ n ih => exact Memory.wf_write _ _ ih

/-- `MemWrite` within the array keeps every cell within it. -/
theorem Memory.below_writeLE {m : Memory} {cap a : Nat} (v : Word) {n : Nat} (hn : a + n ≤ cap)
    (h : Memory.below cap m = true) : Memory.below cap (Memory.writeLE m a v n) = true := by
  induction n with
  | zero => exact h
  | succ n ih => exact Memory.below_write _ (by omega) (ih (by omega))

end Sys2Proof.Machine
end

