-- ==== Sys2Proof/Laws/State.lean ====
section
/-! SUPPORT. One lemma per field per update, true by rfl, and the laws of the register file. -/

namespace Sys2Proof.Machine

/-! ## `writeReg` -/

@[simp] theorem writeReg_pc (s : State) (i : RegIdx) (v : Word) : (s.writeReg i v).pc = s.pc := rfl
@[simp] theorem writeReg_icount (s : State) (i : RegIdx) (v : Word) : (s.writeReg i v).icount = s.icount := rfl
@[simp] theorem writeReg_hstate (s : State) (i : RegIdx) (v : Word) : (s.writeReg i v).hstate = s.hstate := rfl
@[simp] theorem writeReg_haltCause (s : State) (i : RegIdx) (v : Word) : (s.writeReg i v).haltCause = s.haltCause := rfl
@[simp] theorem writeReg_haltInfo (s : State) (i : RegIdx) (v : Word) : (s.writeReg i v).haltInfo = s.haltInfo := rfl
@[simp] theorem writeReg_csrs (s : State) (i : RegIdx) (v : Word) : (s.writeReg i v).csrs = s.csrs := rfl
@[simp] theorem writeReg_mem (s : State) (i : RegIdx) (v : Word) : (s.writeReg i v).mem = s.mem := rfl
@[simp] theorem writeReg_cfg (s : State) (i : RegIdx) (v : Word) : (s.writeReg i v).cfg = s.cfg := rfl

/-! ## `memWrite` -/

@[simp] theorem memWrite_regs (s : State) (a : Word) (n : Nat) (v : Word) : (s.memWrite a n v).regs = s.regs := rfl
@[simp] theorem memWrite_pc (s : State) (a : Word) (n : Nat) (v : Word) : (s.memWrite a n v).pc = s.pc := rfl
@[simp] theorem memWrite_icount (s : State) (a : Word) (n : Nat) (v : Word) : (s.memWrite a n v).icount = s.icount := rfl
@[simp] theorem memWrite_hstate (s : State) (a : Word) (n : Nat) (v : Word) : (s.memWrite a n v).hstate = s.hstate := rfl
@[simp] theorem memWrite_haltCause (s : State) (a : Word) (n : Nat) (v : Word) : (s.memWrite a n v).haltCause = s.haltCause := rfl
@[simp] theorem memWrite_haltInfo (s : State) (a : Word) (n : Nat) (v : Word) : (s.memWrite a n v).haltInfo = s.haltInfo := rfl
@[simp] theorem memWrite_csrs (s : State) (a : Word) (n : Nat) (v : Word) : (s.memWrite a n v).csrs = s.csrs := rfl
@[simp] theorem memWrite_mem (s : State) (a : Word) (n : Nat) (v : Word) :
    (s.memWrite a n v).mem = Memory.writeLE s.mem a.toNat v n := rfl
@[simp] theorem memWrite_cfg (s : State) (a : Word) (n : Nat) (v : Word) : (s.memWrite a n v).cfg = s.cfg := rfl

/-! ## `csrWrite` -/

@[simp] theorem csrWrite_regs (s : State) (a : CsrAddr) (v : Word) : (s.csrWrite a v).regs = s.regs := rfl
@[simp] theorem csrWrite_pc (s : State) (a : CsrAddr) (v : Word) : (s.csrWrite a v).pc = s.pc := rfl
@[simp] theorem csrWrite_icount (s : State) (a : CsrAddr) (v : Word) : (s.csrWrite a v).icount = s.icount := rfl
@[simp] theorem csrWrite_hstate (s : State) (a : CsrAddr) (v : Word) : (s.csrWrite a v).hstate = s.hstate := rfl
@[simp] theorem csrWrite_haltCause (s : State) (a : CsrAddr) (v : Word) : (s.csrWrite a v).haltCause = s.haltCause := rfl
@[simp] theorem csrWrite_haltInfo (s : State) (a : CsrAddr) (v : Word) : (s.csrWrite a v).haltInfo = s.haltInfo := rfl
@[simp] theorem csrWrite_csrs (s : State) (a : CsrAddr) (v : Word) : (s.csrWrite a v).csrs = csrReplace s.csrs a v := rfl
@[simp] theorem csrWrite_mem (s : State) (a : CsrAddr) (v : Word) : (s.csrWrite a v).mem = s.mem := rfl
@[simp] theorem csrWrite_cfg (s : State) (a : CsrAddr) (v : Word) : (s.csrWrite a v).cfg = s.cfg := rfl

/-! ## `halt` -/

@[simp] theorem halt_regs (c : HaltCause) (w : Word) (s : State) : (halt c w s).regs = s.regs := rfl
@[simp] theorem halt_pc (c : HaltCause) (w : Word) (s : State) : (halt c w s).pc = s.pc := rfl
@[simp] theorem halt_icount (c : HaltCause) (w : Word) (s : State) : (halt c w s).icount = s.icount := rfl
@[simp] theorem halt_hstate (c : HaltCause) (w : Word) (s : State) : (halt c w s).hstate = .halted := rfl
@[simp] theorem halt_haltCause (c : HaltCause) (w : Word) (s : State) : (halt c w s).haltCause = c := rfl
@[simp] theorem halt_haltInfo (c : HaltCause) (w : Word) (s : State) : (halt c w s).haltInfo = w := rfl
@[simp] theorem halt_csrs (c : HaltCause) (w : Word) (s : State) : (halt c w s).csrs = s.csrs := rfl
@[simp] theorem halt_mem (c : HaltCause) (w : Word) (s : State) : (halt c w s).mem = s.mem := rfl
@[simp] theorem halt_cfg (c : HaltCause) (w : Word) (s : State) : (halt c w s).cfg = s.cfg := rfl

/-! ## `retire` -/

@[simp] theorem retire_regs (p : Word) (s : State) : (retire p s).regs = s.regs := rfl
@[simp] theorem retire_pc (p : Word) (s : State) : (retire p s).pc = p := rfl
@[simp] theorem retire_icount (p : Word) (s : State) : (retire p s).icount = s.icount + 1#64 := rfl
@[simp] theorem retire_hstate (p : Word) (s : State) : (retire p s).hstate = s.hstate := rfl
@[simp] theorem retire_haltCause (p : Word) (s : State) : (retire p s).haltCause = s.haltCause := rfl
@[simp] theorem retire_haltInfo (p : Word) (s : State) : (retire p s).haltInfo = s.haltInfo := rfl
@[simp] theorem retire_csrs (p : Word) (s : State) : (retire p s).csrs = s.csrs := rfl
@[simp] theorem retire_mem (p : Word) (s : State) : (retire p s).mem = s.mem := rfl
@[simp] theorem retire_cfg (p : Word) (s : State) : (retire p s).cfg = s.cfg := rfl

/-! ## The register file (R23) -/

/-- Reads depend on the register array alone. -/
theorem readReg_congr {s t : State} (h : t.regs = s.regs) (r : RegIdx) : t.readReg r = s.readReg r := by
  simp [State.readReg, h]

@[simp] theorem readReg_zero (s : State) : s.readReg 0#5 = 0#32 := rfl

/-- A register read after a write: `x0` is 0, the written register holds the value, the others theirs. -/
theorem readReg_writeReg (s : State) (i r : RegIdx) (v : Word) :
    (s.writeReg i v).readReg r = if r = 0#5 then 0#32 else if r = i then v else s.readReg r := by
  by_cases hr : r = 0#5
  · simp [hr]
  · by_cases hi : i = 0#5
    · subst hi; simp [State.writeReg, State.readReg, hr]
    · by_cases h : r = i
      · subst h; simp [State.writeReg, State.readReg, hr]
      · have hn : i.toNat ≠ r.toNat := fun e => h (BitVec.eq_of_toNat_eq e.symm)
        simp [State.writeReg, State.readReg, hr, hi, h, Vector.getElem_set_ne, hn]

/-- The cell of `x0` is never written. -/
theorem writeReg_regs_zero (s : State) (i : RegIdx) (v : Word) : (s.writeReg i v).regs[0] = s.regs[0] := by
  by_cases hi : i = 0#5
  · simp [State.writeReg, hi]
  · have hn : i.toNat ≠ 0 := fun e => hi (BitVec.eq_of_toNat_eq (by simpa using e))
    simp [State.writeReg, hi, Vector.getElem_set_ne, hn]

end Sys2Proof.Machine
end

