-- ==== Sys2Proof/Laws/Ops.lean ====
section
/-! SUPPORT. `MemRead` in terms of bytes (R56), and what a commit does (R107): one lemma per field. -/

namespace Sys2Proof.Machine

/-! ## `MemRead` -/

/-- An append as a number. -/
theorem append_toNat {v w : Nat} (x : BitVec v) (y : BitVec w) : (x ++ y).toNat = y.toNat + x.toNat * 2 ^ w := by
  rw [BitVec.toNat_append, Nat.shiftLeft_eq, Nat.mul_comm, ← Nat.two_pow_add_eq_or_of_lt y.isLt, Nat.add_comm]

/-- One byte more stands above the bytes below it. -/
theorem memRead_succ (s : State) (a : Word) (n : Nat) :
    (s.memRead a (n + 1)).toNat = (Memory.read s.mem (a.toNat + n) ++ s.memRead a n).toNat := by
  have h := Memory.readLE_lt s.mem a.toNat (n + 1)
  have h' := Memory.readLE_lt s.mem a.toNat n
  rw [append_toNat]
  simp only [State.memRead, BitVec.toNat_ofNat, Nat.mod_eq_of_lt h, Nat.mod_eq_of_lt h']
  rfl

theorem memRead_one (s : State) (a : Word) : s.memRead a 1 = Memory.read s.mem a.toNat := by
  apply BitVec.eq_of_toNat_eq
  rw [memRead_succ s a 0, append_toNat]
  simp [State.memRead, Memory.readLE]

theorem memRead_two (s : State) (a : Word) :
    s.memRead a 2 = Memory.read s.mem (a.toNat + 1) ++ Memory.read s.mem a.toNat := by
  apply BitVec.eq_of_toNat_eq
  rw [memRead_succ s a 1, memRead_one]

theorem memRead_three (s : State) (a : Word) :
    s.memRead a 3 =
      Memory.read s.mem (a.toNat + 2) ++ Memory.read s.mem (a.toNat + 1) ++ Memory.read s.mem a.toNat := by
  apply BitVec.eq_of_toNat_eq
  rw [memRead_succ s a 2, memRead_two, append_toNat, append_toNat, append_toNat, append_toNat]
  ring

theorem memRead_four (s : State) (a : Word) :
    s.memRead a 4 =
      Memory.read s.mem (a.toNat + 3) ++ Memory.read s.mem (a.toNat + 2) ++ Memory.read s.mem (a.toNat + 1) ++
        Memory.read s.mem a.toNat := by
  apply BitVec.eq_of_toNat_eq
  rw [memRead_succ s a 3, memRead_three, append_toNat, append_toNat, append_toNat, append_toNat, append_toNat,
    append_toNat]
  ring

/-- The word at an address is that of its four bytes (R104). -/
theorem memRead_wordOfBytes (s : State) (a : Word) :
    s.memRead a 4 = wordOfBytes (Memory.read s.mem a.toNat) (Memory.read s.mem (a.toNat + 1))
      (Memory.read s.mem (a.toNat + 2)) (Memory.read s.mem (a.toNat + 3)) := memRead_four s a

/-- `MemRead` gives the same value in states whose bytes there read alike. -/
theorem memRead_congr {s t : State} {a : Word} {n : Nat}
    (h : ∀ b, a.toNat ≤ b → b < a.toNat + n → Memory.read t.mem b = Memory.read s.mem b) :
    t.memRead a n = s.memRead a n := by
  rw [State.memRead, State.memRead, Memory.readLE_congr h]

/-! ## `commit` -/

@[simp] theorem commit_pc (w : Writes) (p : Word) (s : State) : (commit w p s).pc = p := rfl

@[simp] theorem commit_icount (w : Writes) (p : Word) (s : State) : (commit w p s).icount = s.icount + 1#64 := by
  obtain ⟨_ | _, _ | _, _ | _⟩ := w <;> rfl

@[simp] theorem commit_hstate (w : Writes) (p : Word) (s : State) : (commit w p s).hstate = s.hstate := by
  obtain ⟨_ | _, _ | _, _ | _⟩ := w <;> rfl

@[simp] theorem commit_haltCause (w : Writes) (p : Word) (s : State) : (commit w p s).haltCause = s.haltCause := by
  obtain ⟨_ | _, _ | _, _ | _⟩ := w <;> rfl

@[simp] theorem commit_haltInfo (w : Writes) (p : Word) (s : State) : (commit w p s).haltInfo = s.haltInfo := by
  obtain ⟨_ | _, _ | _, _ | _⟩ := w <;> rfl

@[simp] theorem commit_cfg (w : Writes) (p : Word) (s : State) : (commit w p s).cfg = s.cfg := by
  obtain ⟨_ | _, _ | _, _ | _⟩ := w <;> rfl

/-- The register array after a commit. -/
theorem commit_regs (w : Writes) (p : Word) (s : State) : (commit w p s).regs = (applyReg w.reg s).regs := by
  obtain ⟨_ | _, _ | _, _ | _⟩ := w <;> rfl

/-- Memory after a commit. -/
theorem commit_mem (w : Writes) (p : Word) (s : State) : (commit w p s).mem = (applyMem w.mem s).mem := by
  obtain ⟨_ | _, _ | _, _ | _⟩ := w <;> rfl

/-- The CSR map after a commit. -/
theorem commit_csrs (w : Writes) (p : Word) (s : State) : (commit w p s).csrs = (applyCsr w.csr s).csrs := by
  obtain ⟨_ | _, _ | _, _ | _⟩ := w <;> rfl

/-- A register after a commit: the written one holds its value, `x0` is 0, the others hold theirs. -/
theorem readReg_commit (w : Writes) (p : Word) (s : State) (r : RegIdx) :
    (commit w p s).readReg r =
      match w.reg with
      | none => s.readReg r
      | some (rd, v) => if r = 0#5 then 0#32 else if r = rd then v else s.readReg r := by
  rw [readReg_congr (commit_regs w p s)]
  obtain ⟨_ | ⟨rd, v⟩, _, _⟩ := w
  · rfl
  · exact readReg_writeReg s rd r v

/-- A CSR after a commit. -/
theorem csrRead_commit (w : Writes) (p : Word) (s : State) (b : CsrAddr) :
    (commit w p s).csrRead b =
      match w.csr with
      | none => s.csrRead b
      | some (a, v) => if b = a ∧ (s.csrRead a).isSome then some v else s.csrRead b := by
  rw [State.csrRead, commit_csrs]
  obtain ⟨_, _, _ | ⟨a, v⟩⟩ := w
  · rfl
  · exact csrFind_csrReplace s.csrs a b v

/-- A byte of memory after a commit. -/
theorem read_commit (w : Writes) (p : Word) (s : State) (b : Nat) :
    Memory.read (commit w p s).mem b =
      match w.mem with
      | none => Memory.read s.mem b
      | some (a, n, v) =>
        if a.toNat ≤ b ∧ b < a.toNat + n then v.extractLsb' (8 * (b - a.toNat)) 8 else Memory.read s.mem b := by
  rw [commit_mem]
  obtain ⟨_, _ | ⟨a, n, v⟩, _⟩ := w
  · rfl
  · exact Memory.read_writeLE s.mem a.toNat v n b

end Sys2Proof.Machine
end

