-- ==== Sys2Proof/Laws/Exec.lean ====
section
/-! SUPPORT. What an instruction and a step can do, said once: an instruction commits writes of a stated shape or
halts on its own condition (R105, R107, R196), and a step stays, halts at the fetch or at an illegal word, or runs
the decoded instruction (R100, R111). -/

namespace Sys2Proof.Machine

/-- The writes are of the shape the instruction's form allows: its destination register, a store's bytes within
the array, a registered CSR's value. -/
structure WritesFit (i : Instr) (s : State) (w : Writes) : Prop where
  reg : w.reg.map Prod.fst = i.destReg
  mem : ∀ a n v, w.mem = some (a, n, v) →
    s.inRange a n = true ∧ ∃ rs1 imm, i.storeForm = some (rs1, imm, n) ∧ a = effAddr rs1 imm s
  csr : ∀ a v, w.csr = some (a, v) → i.csrAddr? = some a ∧ (s.csrRead a).isSome = true

/-- An effect that the instruction may have at `s`. -/
inductive EffectFits (i : Instr) (s : State) : Effect → Prop where
  | retires (w : Writes) (p : Word) (fit : WritesFit i s w) (seq : ¬ transfers i s → p = s.pc + 4#32)
      (runs : haltCondition i s = none) : EffectFits i s (.retire w p)
  | halts (c : HaltCause) (info : Word) (why : haltCondition i s = some (c, info)) : EffectFits i s (.halt c info)

/-- A register write is the whole of it. -/
theorem WritesFit.of_reg {i : Instr} {s : State} {rd : RegIdx} {v : Word} (h : i.destReg = some rd) :
    WritesFit i s { reg := some (rd, v) } :=
  ⟨by simp [h], by simp, by simp⟩

/-- No write at all. -/
theorem WritesFit.of_none {i : Instr} {s : State} (h : i.destReg = none) : WritesFit i s {} :=
  ⟨by simp [h], by simp, by simp⟩

theorem EffectFits.writeRd {i : Instr} {s : State} {rd : RegIdx} {v : Word} (hd : i.destReg = some rd)
    (hh : haltCondition i s = none) : EffectFits i s (writeRd rd v s) :=
  .retires _ _ (.of_reg hd) (fun _ => rfl) hh

theorem EffectFits.load {i : Instr} {s : State} {n : Nat} {extend : BitVec (8 * n) → Word} {rd rs1 : RegIdx}
    {imm : BitVec 12} (hd : i.destReg = some rd)
    (hh : haltCondition i s = if (s.readReg rs1 + imm.signExtend 32).toNat + n ≤ s.cfg.memCapacity then none
      else some (.loadOutOfRange, s.readReg rs1 + imm.signExtend 32)) :
    EffectFits i s (loadEffect n extend rd rs1 imm s) := by
  unfold loadEffect State.inRange effAddr imm12
  by_cases h : (s.readReg rs1 + imm.signExtend 32).toNat + n ≤ s.cfg.memCapacity
  · simp only [h, decide_true, ↓reduceIte] at hh ⊢
    exact .writeRd hd hh
  · simp only [h, decide_false, Bool.false_eq_true, ↓reduceIte] at hh ⊢
    exact .halts _ _ hh

theorem EffectFits.store {i : Instr} {s : State} {n : Nat} {rs1 rs2 : RegIdx} {imm : BitVec 12}
    (hd : i.destReg = none) (hf : i.storeForm = some (rs1, imm, n))
    (hh : haltCondition i s = if (s.readReg rs1 + imm.signExtend 32).toNat + n ≤ s.cfg.memCapacity then none
      else some (.storeOutOfRange, s.readReg rs1 + imm.signExtend 32)) :
    EffectFits i s (storeEffect n rs1 rs2 imm s) := by
  unfold storeEffect
  by_cases h : (s.readReg rs1 + imm.signExtend 32).toNat + n ≤ s.cfg.memCapacity
  · have hr : s.inRange (effAddr rs1 imm s) n = true := decide_eq_true h
    rw [if_pos hr]
    refine .retires _ _ ⟨by simp [hd], ?_, by simp⟩ (fun _ => rfl) (hh.trans (if_pos h))
    intro a m v e
    simp only [Option.some.injEq, Prod.mk.injEq] at e
    obtain ⟨rfl, rfl, rfl⟩ := e
    exact ⟨hr, rs1, imm, hf, rfl⟩
  · have hr : ¬ s.inRange (effAddr rs1 imm s) n = true := fun e => h (of_decide_eq_true e)
    rw [if_neg hr]
    exact .halts _ _ (hh.trans (if_neg h))

theorem EffectFits.branch {i : Instr} {s : State} {op : CmpOp} {rs1 rs2 : RegIdx} {off : BitVec 13}
    (hd : i.destReg = none) (ht : compareBy op (s.readReg rs1) (s.readReg rs2) = true ↔ transfers i s)
    (hh : haltCondition i s = none) : EffectFits i s (branchEffect op rs1 rs2 off s) := by
  unfold branchEffect
  by_cases h : compareBy op (s.readReg rs1) (s.readReg rs2) = true
  · rw [if_pos h]
    exact .retires _ _ (.of_none hd) (fun hn => absurd (ht.mp h) hn) hh
  · rw [if_neg h]
    exact .retires _ _ (.of_none hd) (fun _ => rfl) hh

theorem EffectFits.csr {i : Instr} {s : State} {f : Word → Word → Word} {rd : RegIdx} {a : CsrAddr} {src : Word}
    (hd : i.destReg = some rd) (ha : i.csrAddr? = some a)
    (hh : haltCondition i s = if s.csrRead a = none then some (.csrUndefined, a.setWidth 32) else none) :
    EffectFits i s (csrEffect f rd a src s) := by
  unfold csrEffect
  cases h : s.csrRead a with
  | none => exact .halts _ _ (by rw [hh, h]; rfl)
  | some old =>
    refine .retires _ _ ⟨by simp [hd], by simp, ?_⟩ (fun _ => rfl) (by rw [hh, h]; rfl)
    intro b v e
    simp only [Option.some.injEq, Prod.mk.injEq] at e
    obtain ⟨rfl, rfl⟩ := e
    exact ⟨ha, by simp [h]⟩

/-- Every instruction's outcome is that of one effect, and the effect is one the instruction may have. -/
theorem exec_effect (i : Instr) (s : State) : ∃ e, exec i s = .next (e.apply s) ∧ EffectFits i s e := by
  cases i
  case lui => exact ⟨_, rfl, .writeRd rfl rfl⟩
  case auipc => exact ⟨_, rfl, .writeRd rfl rfl⟩
  case jal => exact ⟨_, rfl, .retires _ _ (.of_reg rfl) (fun h => absurd trivial h) rfl⟩
  case jalr => exact ⟨_, rfl, .retires _ _ (.of_reg rfl) (fun h => absurd trivial h) rfl⟩
  case beq => exact ⟨_, rfl, .branch rfl (by simp [compareBy, transfers]) rfl⟩
  case bne => exact ⟨_, rfl, .branch rfl (by simp [compareBy, transfers]) rfl⟩
  case blt => exact ⟨_, rfl, .branch rfl (by simp [compareBy, transfers]) rfl⟩
  case bge => exact ⟨_, rfl, .branch rfl (by simp [compareBy, transfers]) rfl⟩
  case bltu => exact ⟨_, rfl, .branch rfl (by simp [compareBy, transfers]) rfl⟩
  case bgeu => exact ⟨_, rfl, .branch rfl (by simp [compareBy, transfers]) rfl⟩
  case lb => exact ⟨_, rfl, .load rfl rfl⟩
  case lh => exact ⟨_, rfl, .load rfl rfl⟩
  case lw => exact ⟨_, rfl, .load rfl rfl⟩
  case lbu => exact ⟨_, rfl, .load rfl rfl⟩
  case lhu => exact ⟨_, rfl, .load rfl rfl⟩
  case sb => exact ⟨_, rfl, .store rfl rfl rfl⟩
  case sh => exact ⟨_, rfl, .store rfl rfl rfl⟩
  case sw => exact ⟨_, rfl, .store rfl rfl rfl⟩
  case addi => exact ⟨_, rfl, .writeRd rfl rfl⟩
  case slti => exact ⟨_, rfl, .writeRd rfl rfl⟩
  case sltiu => exact ⟨_, rfl, .writeRd rfl rfl⟩
  case xori => exact ⟨_, rfl, .writeRd rfl rfl⟩
  case ori => exact ⟨_, rfl, .writeRd rfl rfl⟩
  case andi => exact ⟨_, rfl, .writeRd rfl rfl⟩
  case slli => exact ⟨_, rfl, .writeRd rfl rfl⟩
  case srli => exact ⟨_, rfl, .writeRd rfl rfl⟩
  case srai => exact ⟨_, rfl, .writeRd rfl rfl⟩
  case add => exact ⟨_, rfl, .writeRd rfl rfl⟩
  case sub => exact ⟨_, rfl, .writeRd rfl rfl⟩
  case sll => exact ⟨_, rfl, .writeRd rfl rfl⟩
  case slt => exact ⟨_, rfl, .writeRd rfl rfl⟩
  case sltu => exact ⟨_, rfl, .writeRd rfl rfl⟩
  case xor => exact ⟨_, rfl, .writeRd rfl rfl⟩
  case srl => exact ⟨_, rfl, .writeRd rfl rfl⟩
  case sra => exact ⟨_, rfl, .writeRd rfl rfl⟩
  case or => exact ⟨_, rfl, .writeRd rfl rfl⟩
  case and => exact ⟨_, rfl, .writeRd rfl rfl⟩
  case ecall => exact ⟨_, rfl, .halts _ _ rfl⟩
  case ebreak => exact ⟨_, rfl, .halts _ _ rfl⟩
  case csrrw => exact ⟨_, rfl, .csr rfl rfl rfl⟩
  case csrrs => exact ⟨_, rfl, .csr rfl rfl rfl⟩
  case csrrc => exact ⟨_, rfl, .csr rfl rfl rfl⟩
  case csrrwi => exact ⟨_, rfl, .csr rfl rfl rfl⟩
  case csrrsi => exact ⟨_, rfl, .csr rfl rfl rfl⟩
  case csrrci => exact ⟨_, rfl, .csr rfl rfl rfl⟩

/-- An instruction never halts with cause NONE. -/
theorem haltCondition_cause {i : Instr} {s : State} {c : HaltCause} {info : Word}
    (h : haltCondition i s = some (c, info)) : c ≠ .none := by
  rintro rfl
  cases i <;>
    simp only [haltCondition, Instr.loadForm, Instr.storeForm, Instr.csrAddr?, reduceCtorEq, Option.some.injEq,
      Prod.mk.injEq, false_and] at h
  all_goals split at h <;> simp at h

/-! ## Shapes of a result from an effect -/

/-- Retiring with a register write alone. -/
theorem WritesReg.of_retire (s : State) (rd : RegIdx) (v p : Word) :
    WritesReg (finish (.retire { reg := some (rd, v) } p) s) s rd v p :=
  ⟨_, rfl, fun _ => readReg_commit _ _ _ _, rfl, fun _ => read_commit _ _ _ _, fun _ => csrRead_commit _ _ _ _,
    ⟨rfl, rfl, rfl⟩, rfl⟩

/-- Retiring with no write. -/
theorem OnlyMoves.of_retire (s : State) (p : Word) : OnlyMoves (finish (.retire {} p) s) s p :=
  ⟨_, rfl, rfl, fun _ => readReg_commit _ _ _ _, fun _ => read_commit _ _ _ _, fun _ => csrRead_commit _ _ _ _,
    ⟨rfl, rfl, rfl⟩, rfl⟩

/-- Retiring with a memory write alone. -/
theorem StoresBytes.of_retire (s : State) (ea : Word) (n : Nat) (v : Word) :
    StoresBytes (finish (sequential { mem := some (ea, n, v) } s) s) s ea n v := by
  refine ⟨_, rfl, rfl, fun i hi => ?_, fun a ha => ?_, fun _ => readReg_commit _ _ _ _,
    fun _ => csrRead_commit _ _ _ _, ⟨rfl, rfl, rfl⟩, rfl⟩
  · refine (read_commit _ _ _ _).trans ((if_pos ⟨by omega, by omega⟩).trans ?_)
    apply BitVec.eq_of_getLsbD_eq
    intro j hj
    simp [hj]
  · exact (read_commit _ _ _ _).trans (if_neg (by omega))

/-- Retiring with a register write and a write to a registered CSR. -/
theorem WritesCsr.of_retire (s : State) (rd : RegIdx) (a : CsrAddr) (old new : Word) (hs : s.csrRead a = some old) :
    WritesCsr (finish (sequential { reg := some (rd, old), csr := some (a, new) } s) s) s rd a old new := by
  refine ⟨_, rfl, fun _ => readReg_commit _ _ _ _, rfl, fun b => (csrRead_commit _ _ _ _).trans ?_,
    fun _ => read_commit _ _ _ _, ⟨rfl, rfl, rfl⟩, rfl⟩
  simp [hs]

/-- Halting. -/
theorem HaltsWith.of_halt (s : State) (c : HaltCause) (info : Word) : HaltsWith (.next (halt c info s)) s c info :=
  ⟨_, rfl, rfl, rfl, rfl, rfl, rfl, fun _ => rfl, fun _ => rfl, fun _ => rfl, rfl⟩

/-! ## The rules of loads, stores and CSR instructions from their shared effects -/

theorem LoadRule.of_loadEffect {n : Nat} {extend : BitVec (8 * n) → Word} {i : Instr} {rd rs1 : RegIdx}
    {imm : BitVec 12} {s : State} (h : exec i s = finish (loadEffect n extend rd rs1 imm s) s) :
    LoadRule i s rd (effAddr rs1 imm s) n (extend (s.memRead (effAddr rs1 imm s) n)) := by
  refine ⟨fun hr => ?_, fun hr => ?_⟩
  · have hr : s.inRange (effAddr rs1 imm s) n = true := decide_eq_true hr
    rw [h, loadEffect, if_pos hr]
    exact .of_retire _ _ _ _
  · have hr : ¬ s.inRange (effAddr rs1 imm s) n = true := fun e => absurd (of_decide_eq_true e) (by omega)
    rw [h, loadEffect, if_neg hr]
    exact .of_halt _ _ _

theorem StoreRule.of_storeEffect {n : Nat} {i : Instr} {rs1 rs2 : RegIdx} {imm : BitVec 12} {s : State}
    (h : exec i s = finish (storeEffect n rs1 rs2 imm s) s) :
    StoreRule i s (effAddr rs1 imm s) n (s.readReg rs2) := by
  refine ⟨fun hr => ?_, fun hr => ?_⟩
  · have hr : s.inRange (effAddr rs1 imm s) n = true := decide_eq_true hr
    rw [h, storeEffect, if_pos hr]
    exact .of_retire _ _ _ _
  · have hr : ¬ s.inRange (effAddr rs1 imm s) n = true := fun e => absurd (of_decide_eq_true e) (by omega)
    rw [h, storeEffect, if_neg hr]
    exact .of_halt _ _ _

theorem CsrRule.of_csrEffect {f : Word → Word → Word} {i : Instr} {rd : RegIdx} {a : CsrAddr} {src : Word}
    {s : State} (h : exec i s = finish (csrEffect f rd a src s) s) : CsrRule i s rd a (fun old => f old src) := by
  refine ⟨fun old hs => ?_, fun hs => ?_⟩
  · rw [h, csrEffect, hs]
    exact .of_retire _ _ _ _ _ hs
  · rw [h, csrEffect, hs, zero_append_eq_setWidth]
    exact .of_halt _ _ _

/-! ## Fetching and stepping -/

/-- `pc[1:0] = 00` is `pc` a multiple of 4. -/
theorem pcAligned_iff (s : State) : pcAligned s = true ↔ s.pc.toNat % 4 = 0 := by
  unfold pcAligned
  rw [decide_eq_true_eq, ← BitVec.toNat_inj]
  simp

/-- What `fetch` answers: the alignment check, then the range check, then the word at `pc` (R102 to R104). -/
theorem fetch_cases (s : State) :
    (pcAligned s = false ∧ fetch s = .fails .fetchMisaligned) ∨
    (pcAligned s = true ∧ s.inRange s.pc 4 = false ∧ fetch s = .fails .fetchOutOfRange) ∨
    (pcAligned s = true ∧ s.inRange s.pc 4 = true ∧ fetch s = .word (s.memRead s.pc 4)) := by
  unfold fetch
  cases pcAligned s
  · exact .inl ⟨rfl, rfl⟩
  · cases s.inRange s.pc 4
    · exact .inr (.inl ⟨rfl, rfl, rfl⟩)
    · exact .inr (.inr ⟨rfl, rfl, rfl⟩)

/-- The three answers of `fetch` under their conditions. -/
theorem fetch_misaligned {s : State} (h : s.pc.toNat % 4 ≠ 0) : fetch s = .fails .fetchMisaligned := by
  unfold fetch
  exact if_neg (fun e => h ((pcAligned_iff s).mp e))

theorem fetch_outOfRange {s : State} (h : s.pc.toNat % 4 = 0) (h' : s.cfg.memCapacity < s.pc.toNat + 4) :
    fetch s = .fails .fetchOutOfRange := by
  have hr : ¬ s.inRange s.pc 4 = true := fun e => absurd (of_decide_eq_true e) (by omega)
  unfold fetch
  rw [if_pos ((pcAligned_iff s).mpr h), if_neg hr]

theorem fetch_word {s : State} (h : s.pc.toNat % 4 = 0) (h' : s.pc.toNat + 4 ≤ s.cfg.memCapacity) :
    fetch s = .word (s.memRead s.pc 4) := by
  unfold fetch
  rw [if_pos ((pcAligned_iff s).mpr h), if_pos (show s.inRange s.pc 4 = true from decide_eq_true h')]

/-- `execute` on a word whose decoding is known. -/
theorem execute_legal {w : Word} {i : Instr} (s : State) (h : decode w = .legal i) : execute w s = exec i s := by
  unfold execute
  rw [h]

theorem execute_illegal {w : Word} {r : IllegalReason} (s : State) (h : decode w = .illegal r) :
    execute w s = .next (halt .illegalInstruction w s) := by
  unfold execute
  rw [h]

/-- A RUNNING step whose fetch is known. -/
theorem step_fails {s : State} {c : HaltCause} (h : s.hstate = .running) (hf : fetch s = .fails c) :
    step s = .next (halt c s.pc s) := by
  simp only [step, cycle, h, hf]

theorem step_word {s : State} {w : Word} (h : s.hstate = .running) (hf : fetch s = .word w) :
    step s = execute w s := by
  simp only [step, cycle, h, hf]

/-- `execute` halts on an illegal word, and has the effect of a legal word's instruction (R105, R106). -/
theorem execute_cases (w : Word) (s : State) :
    (∃ r, decode w = .illegal r ∧ execute w s = .next (halt .illegalInstruction w s)) ∨
    (∃ i e, decode w = .legal i ∧ execute w s = .next (e.apply s) ∧ EffectFits i s e) := by
  unfold execute
  cases h : decode w with
  | illegal r => exact .inl ⟨r, rfl, rfl⟩
  | legal i =>
    obtain ⟨e, he, fit⟩ := exec_effect i s
    exact .inr ⟨i, e, rfl, he, fit⟩

/-- A step of a HALTED core. -/
theorem step_halted {s : State} (h : s.hstate = .halted) : step s = .next s := by
  unfold step cycle
  rw [h]

/-- A step of a RUNNING core: a fetch halt, an illegal word, or the decoded instruction's effect (R100, R111). -/
theorem step_running {s : State} (h : s.hstate = .running) :
    (∃ c, fetch s = .fails c ∧ c ≠ .none ∧ step s = .next (halt c s.pc s)) ∨
    (∃ w r, fetch s = .word w ∧ decode w = .illegal r ∧ step s = .next (halt .illegalInstruction w s)) ∨
    (∃ w i e, fetch s = .word w ∧ decode w = .legal i ∧ step s = .next (e.apply s) ∧ EffectFits i s e) := by
  cases hf : fetch s with
  | fails c =>
    refine .inl ⟨c, rfl, ?_, step_fails h hf⟩
    rcases fetch_cases s with ⟨_, h2⟩ | ⟨_, _, h2⟩ | ⟨_, _, h2⟩ <;> rw [hf] at h2 <;> cases h2 <;> decide
  | word w =>
    have hs := step_word h hf
    rcases execute_cases w s with ⟨r, hd, he⟩ | ⟨i, e, hd, he, fit⟩
    · exact .inr (.inl ⟨w, r, rfl, hd, hs.trans he⟩)
    · exact .inr (.inr ⟨w, i, e, rfl, hd, hs.trans he, fit⟩)

/-! ## Runs -/

theorem runSteps_zero (s : State) : runSteps 0 s = .next s := rfl

theorem core_run_succ (M : Host.Core) {s t : M.State} (n : Nat) (h : M.step s = .next t) :
    M.run (n + 1) s = M.run n t := by
  rw [Host.Core.run, h]

theorem runSteps_succ {s t : State} (n : Nat) (h : step s = .next t) : runSteps (n + 1) s = runSteps n t :=
  core_run_succ Sys2Proof.core n h

end Sys2Proof.Machine
end

