-- ==== Sys2Proof/Laws/PerInstr.lean ====
section
/-! SUPPORT. Statements made of each instruction: its word is its own row's word in the opcode table. -/

namespace Sys2Proof.Laws.Encoding

/-- The instruction's word has the mnemonic's pattern under the mnemonic's mask (the table's rule that a word is a
row's when `word & mask = pattern`). -/
def Statement (i : Instr) : Prop :=
  ∃ row ∈ opcodeRows, row.mnemonic = i.mnemonic ∧ encode i &&& row.mask = row.pattern

theorem lui : ∀ a b, Statement (.lui a b) := by
  intro a b
  exact ⟨⟨"LUI", 0x00000037#32, 0x0000007F#32⟩, by decide, rfl, by rw [encode, mask_encodeU]; decide⟩
theorem auipc : ∀ a b, Statement (.auipc a b) := by
  intro a b
  exact ⟨⟨"AUIPC", 0x00000017#32, 0x0000007F#32⟩, by decide, rfl, by rw [encode, mask_encodeU]; decide⟩
theorem jal : ∀ a b, Statement (.jal a b) := by
  intro a b
  exact ⟨⟨"JAL", 0x0000006F#32, 0x0000007F#32⟩, by decide, rfl, by rw [encode, mask_encodeJ]; decide⟩
theorem jalr : ∀ a b c, Statement (.jalr a b c) := by
  intro a b c
  exact ⟨⟨"JALR", 0x00000067#32, 0x0000707F#32⟩, by decide, rfl, by rw [encode, mask_encodeI]; decide⟩
theorem beq : ∀ a b c, Statement (.beq a b c) := by
  intro a b c
  exact ⟨⟨"BEQ", 0x00000063#32, 0x0000707F#32⟩, by decide, rfl, by rw [encode, mask_encodeB]; decide⟩
theorem bne : ∀ a b c, Statement (.bne a b c) := by
  intro a b c
  exact ⟨⟨"BNE", 0x00001063#32, 0x0000707F#32⟩, by decide, rfl, by rw [encode, mask_encodeB]; decide⟩
theorem blt : ∀ a b c, Statement (.blt a b c) := by
  intro a b c
  exact ⟨⟨"BLT", 0x00004063#32, 0x0000707F#32⟩, by decide, rfl, by rw [encode, mask_encodeB]; decide⟩
theorem bge : ∀ a b c, Statement (.bge a b c) := by
  intro a b c
  exact ⟨⟨"BGE", 0x00005063#32, 0x0000707F#32⟩, by decide, rfl, by rw [encode, mask_encodeB]; decide⟩
theorem bltu : ∀ a b c, Statement (.bltu a b c) := by
  intro a b c
  exact ⟨⟨"BLTU", 0x00006063#32, 0x0000707F#32⟩, by decide, rfl, by rw [encode, mask_encodeB]; decide⟩
theorem bgeu : ∀ a b c, Statement (.bgeu a b c) := by
  intro a b c
  exact ⟨⟨"BGEU", 0x00007063#32, 0x0000707F#32⟩, by decide, rfl, by rw [encode, mask_encodeB]; decide⟩
theorem lb : ∀ a b c, Statement (.lb a b c) := by
  intro a b c
  exact ⟨⟨"LB", 0x00000003#32, 0x0000707F#32⟩, by decide, rfl, by rw [encode, mask_encodeI]; decide⟩
theorem lh : ∀ a b c, Statement (.lh a b c) := by
  intro a b c
  exact ⟨⟨"LH", 0x00001003#32, 0x0000707F#32⟩, by decide, rfl, by rw [encode, mask_encodeI]; decide⟩
theorem lw : ∀ a b c, Statement (.lw a b c) := by
  intro a b c
  exact ⟨⟨"LW", 0x00002003#32, 0x0000707F#32⟩, by decide, rfl, by rw [encode, mask_encodeI]; decide⟩
theorem lbu : ∀ a b c, Statement (.lbu a b c) := by
  intro a b c
  exact ⟨⟨"LBU", 0x00004003#32, 0x0000707F#32⟩, by decide, rfl, by rw [encode, mask_encodeI]; decide⟩
theorem lhu : ∀ a b c, Statement (.lhu a b c) := by
  intro a b c
  exact ⟨⟨"LHU", 0x00005003#32, 0x0000707F#32⟩, by decide, rfl, by rw [encode, mask_encodeI]; decide⟩
theorem sb : ∀ a b c, Statement (.sb a b c) := by
  intro a b c
  exact ⟨⟨"SB", 0x00000023#32, 0x0000707F#32⟩, by decide, rfl, by rw [encode, mask_encodeS]; decide⟩
theorem sh : ∀ a b c, Statement (.sh a b c) := by
  intro a b c
  exact ⟨⟨"SH", 0x00001023#32, 0x0000707F#32⟩, by decide, rfl, by rw [encode, mask_encodeS]; decide⟩
theorem sw : ∀ a b c, Statement (.sw a b c) := by
  intro a b c
  exact ⟨⟨"SW", 0x00002023#32, 0x0000707F#32⟩, by decide, rfl, by rw [encode, mask_encodeS]; decide⟩
theorem addi : ∀ a b c, Statement (.addi a b c) := by
  intro a b c
  exact ⟨⟨"ADDI", 0x00000013#32, 0x0000707F#32⟩, by decide, rfl, by rw [encode, mask_encodeI]; decide⟩
theorem slti : ∀ a b c, Statement (.slti a b c) := by
  intro a b c
  exact ⟨⟨"SLTI", 0x00002013#32, 0x0000707F#32⟩, by decide, rfl, by rw [encode, mask_encodeI]; decide⟩
theorem sltiu : ∀ a b c, Statement (.sltiu a b c) := by
  intro a b c
  exact ⟨⟨"SLTIU", 0x00003013#32, 0x0000707F#32⟩, by decide, rfl, by rw [encode, mask_encodeI]; decide⟩
theorem xori : ∀ a b c, Statement (.xori a b c) := by
  intro a b c
  exact ⟨⟨"XORI", 0x00004013#32, 0x0000707F#32⟩, by decide, rfl, by rw [encode, mask_encodeI]; decide⟩
theorem ori : ∀ a b c, Statement (.ori a b c) := by
  intro a b c
  exact ⟨⟨"ORI", 0x00006013#32, 0x0000707F#32⟩, by decide, rfl, by rw [encode, mask_encodeI]; decide⟩
theorem andi : ∀ a b c, Statement (.andi a b c) := by
  intro a b c
  exact ⟨⟨"ANDI", 0x00007013#32, 0x0000707F#32⟩, by decide, rfl, by rw [encode, mask_encodeI]; decide⟩
theorem slli : ∀ a b c, Statement (.slli a b c) := by
  intro a b c
  exact ⟨⟨"SLLI", 0x00001013#32, 0xFE00707F#32⟩, by decide, rfl, by rw [encode, mask_encodeR]; decide⟩
theorem srli : ∀ a b c, Statement (.srli a b c) := by
  intro a b c
  exact ⟨⟨"SRLI", 0x00005013#32, 0xFE00707F#32⟩, by decide, rfl, by rw [encode, mask_encodeR]; decide⟩
theorem srai : ∀ a b c, Statement (.srai a b c) := by
  intro a b c
  exact ⟨⟨"SRAI", 0x40005013#32, 0xFE00707F#32⟩, by decide, rfl, by rw [encode, mask_encodeR]; decide⟩
theorem add : ∀ a b c, Statement (.add a b c) := by
  intro a b c
  exact ⟨⟨"ADD", 0x00000033#32, 0xFE00707F#32⟩, by decide, rfl, by rw [encode, mask_encodeR]; decide⟩
theorem sub : ∀ a b c, Statement (.sub a b c) := by
  intro a b c
  exact ⟨⟨"SUB", 0x40000033#32, 0xFE00707F#32⟩, by decide, rfl, by rw [encode, mask_encodeR]; decide⟩
theorem sll : ∀ a b c, Statement (.sll a b c) := by
  intro a b c
  exact ⟨⟨"SLL", 0x00001033#32, 0xFE00707F#32⟩, by decide, rfl, by rw [encode, mask_encodeR]; decide⟩
theorem slt : ∀ a b c, Statement (.slt a b c) := by
  intro a b c
  exact ⟨⟨"SLT", 0x00002033#32, 0xFE00707F#32⟩, by decide, rfl, by rw [encode, mask_encodeR]; decide⟩
theorem sltu : ∀ a b c, Statement (.sltu a b c) := by
  intro a b c
  exact ⟨⟨"SLTU", 0x00003033#32, 0xFE00707F#32⟩, by decide, rfl, by rw [encode, mask_encodeR]; decide⟩
theorem xor : ∀ a b c, Statement (.xor a b c) := by
  intro a b c
  exact ⟨⟨"XOR", 0x00004033#32, 0xFE00707F#32⟩, by decide, rfl, by rw [encode, mask_encodeR]; decide⟩
theorem srl : ∀ a b c, Statement (.srl a b c) := by
  intro a b c
  exact ⟨⟨"SRL", 0x00005033#32, 0xFE00707F#32⟩, by decide, rfl, by rw [encode, mask_encodeR]; decide⟩
theorem sra : ∀ a b c, Statement (.sra a b c) := by
  intro a b c
  exact ⟨⟨"SRA", 0x40005033#32, 0xFE00707F#32⟩, by decide, rfl, by rw [encode, mask_encodeR]; decide⟩
theorem or : ∀ a b c, Statement (.or a b c) := by
  intro a b c
  exact ⟨⟨"OR", 0x00006033#32, 0xFE00707F#32⟩, by decide, rfl, by rw [encode, mask_encodeR]; decide⟩
theorem and : ∀ a b c, Statement (.and a b c) := by
  intro a b c
  exact ⟨⟨"AND", 0x00007033#32, 0xFE00707F#32⟩, by decide, rfl, by rw [encode, mask_encodeR]; decide⟩
theorem ecall : Statement (.ecall) := by
  exact ⟨⟨"ECALL", 0x00000073#32, 0xFFFFFFFF#32⟩, by decide, rfl, by decide⟩
theorem ebreak : Statement (.ebreak) := by
  exact ⟨⟨"EBREAK", 0x00100073#32, 0xFFFFFFFF#32⟩, by decide, rfl, by decide⟩
theorem csrrw : ∀ a b c, Statement (.csrrw a b c) := by
  intro a b c
  exact ⟨⟨"CSRRW", 0x00001073#32, 0x0000707F#32⟩, by decide, rfl, by rw [encode, mask_encodeI]; decide⟩
theorem csrrs : ∀ a b c, Statement (.csrrs a b c) := by
  intro a b c
  exact ⟨⟨"CSRRS", 0x00002073#32, 0x0000707F#32⟩, by decide, rfl, by rw [encode, mask_encodeI]; decide⟩
theorem csrrc : ∀ a b c, Statement (.csrrc a b c) := by
  intro a b c
  exact ⟨⟨"CSRRC", 0x00003073#32, 0x0000707F#32⟩, by decide, rfl, by rw [encode, mask_encodeI]; decide⟩
theorem csrrwi : ∀ a b c, Statement (.csrrwi a b c) := by
  intro a b c
  exact ⟨⟨"CSRRWI", 0x00005073#32, 0x0000707F#32⟩, by decide, rfl, by rw [encode, mask_encodeI]; decide⟩
theorem csrrsi : ∀ a b c, Statement (.csrrsi a b c) := by
  intro a b c
  exact ⟨⟨"CSRRSI", 0x00006073#32, 0x0000707F#32⟩, by decide, rfl, by rw [encode, mask_encodeI]; decide⟩
theorem csrrci : ∀ a b c, Statement (.csrrci a b c) := by
  intro a b c
  exact ⟨⟨"CSRRCI", 0x00007073#32, 0x0000707F#32⟩, by decide, rfl, by rw [encode, mask_encodeI]; decide⟩

end Sys2Proof.Laws.Encoding
end

