-- ==== Sys2Proof/Tests/Slice0.lean ====
section
/-! SUPPORT. The model's own tests: words written out from the encodings of 30_encoding.md, vectors of
95_test_vectors.md (each test names its vector), ill-formed terms that the checks refuse, and for each statement with
hypotheses a state and operands that meet them. -/

namespace Sys2Proof.Tests

open Sys2Proof.Machine

/-! ## Helpers -/

/-- The bytes `AA BB CC DD` at the end of a memory of capacity 0x1000 (the store vectors). -/
def tailMem : Memory := [(0xFFC, 0xAA#8), (0xFFD, 0xBB#8), (0xFFE, 0xCC#8), (0xFFF, 0xDD#8)]

/-- The bytes of the load vectors. -/
def dataMem : Memory := [(0x200, 0x80#8), (0x201, 0xFF#8), (0x202, 0x34#8), (0x203, 0x12#8)] ++ tailMem

/-- The reset state at `pc` with these registers and this memory. -/
def start (pc : Word) (regs : List (RegIdx × Word)) (m : Memory) : State :=
  regs.foldl (fun s r => s.writeReg r.1 r.2) { State.reset with pc := pc, mem := m }

/-- The start state of a vector: the word at 0x100, where `pc` is. -/
def vec (w : Word) (regs : List (RegIdx × Word)) (m : Memory := []) : State :=
  start 0x100#32 regs (Memory.writeLE m 0x100 w 4)

/-- The next state of an outcome. -/
def after : Host.Outcome State Fault Refusal → Option State
  | .next t => some t
  | .fault _ => none
  | .refused _ => none

/-- A register, `pc` and `icount` after a step. -/
def regAfter (r : RegIdx) (s : State) : Option (Word × Word × BitVec 64) :=
  (after (step s)).map (fun t => (t.readReg r, t.pc, t.icount))

/-- The bytes from `a` on, `pc` and `icount` after a step. -/
def memAfter (a n : Nat) (s : State) : Option (List Byte × Word × BitVec 64) :=
  (after (step s)).map (fun t => ((List.range n).map (fun i => Memory.read t.mem (a + i)), t.pc, t.icount))

/-- A register, a CSR and `pc` after a step. -/
def csrAfter (r : RegIdx) (a : CsrAddr) (s : State) : Option (Word × Option Word × Word) :=
  (after (step s)).map (fun t => (t.readReg r, t.csrRead a, t.pc))

/-- The halt state, `pc` and `icount` after an outcome. -/
def haltAfter (o : Host.Outcome State Fault Refusal) : Option (HState × HaltCause × Word × Word × BitVec 64) :=
  (after o).map (fun t => (t.hstate, t.haltCause, t.haltInfo, t.pc, t.icount))

/-! ## Well-formedness: what each check refuses -/

theorem test_wf_beq : (Instr.beq 1 2 0x7#13).wf = false ∧ (Instr.beq 1 2 0x1FFE#13).wf = true := by decide
theorem test_wf_bne : (Instr.bne 1 2 0x7#13).wf = false ∧ (Instr.bne 1 2 0x1FFE#13).wf = true := by decide
theorem test_wf_blt : (Instr.blt 1 2 0x7#13).wf = false ∧ (Instr.blt 1 2 0x1FFE#13).wf = true := by decide
theorem test_wf_bge : (Instr.bge 1 2 0x7#13).wf = false ∧ (Instr.bge 1 2 0x1FFE#13).wf = true := by decide
theorem test_wf_bltu : (Instr.bltu 1 2 0x7#13).wf = false ∧ (Instr.bltu 1 2 0x1FFE#13).wf = true := by decide
theorem test_wf_bgeu : (Instr.bgeu 1 2 0x7#13).wf = false ∧ (Instr.bgeu 1 2 0x1FFE#13).wf = true := by decide
theorem test_wf_jal : (Instr.jal 1 0x7#21).wf = false ∧ (Instr.jal 1 0x1FFFFE#21).wf = true := by decide

/-- R10's constraints: capacity 1 to 2^32, the four CSR addresses, each address once. -/
theorem test_wf_config : Config.default.wf = true ∧
    { Config.default with memCapacity := 0 }.wf = false ∧
    { Config.default with memCapacity := 2 ^ 32 }.wf = true ∧
    { Config.default with memCapacity := 2 ^ 32 + 1 }.wf = false ∧
    { Config.default with csrReset := [(0x300#12, 0#32), (0x301#12, 0#32), (0x342#12, 0#32)] }.wf = false ∧
    { Config.default with csrReset := (0x300#12, 0#32) :: Config.default.csrReset }.wf = false := by decide

/-- Memory's form: addresses rise, no cell holds what an unlisted address reads as. -/
theorem test_wf_memory : Memory.wf State.reset.mem = true ∧ Memory.wf dataMem = true ∧
    Memory.wf [(4, 1#8), (4, 2#8)] = false ∧ Memory.wf [(4, 1#8), (3, 2#8)] = false ∧
    Memory.wf [(4, 0#8)] = false ∧ Memory.write [(4, 1#8)] 4 0#8 = [] := by decide

/-! ## Decoding: every constructor by a word written out from the spec's formats (R72) and opcodes (R82, R85) -/

theorem test_decode_upper_jump :
    decode 0b10011010101111001101_10001_0110111#32 = .legal (.lui 17 0x9ABCD#20) ∧
    decode 0b00010010001101000101_11110_0010111#32 = .legal (.auipc 30 0x12345#20) ∧
    decode 0b1_0100101101_1_10100101_01001_1101111#32 = .legal (.jal 9 0x1A5A5A#21) ∧
    decode 0b111111111101_10101_000_00101_1100111#32 = .legal (.jalr 5 21 0xFFD#12) := by decide

theorem test_decode_branch :
    decode 0b0_010101_10100_00011_000_0101_1_1100011#32 = .legal (.beq 3 20 0xAAA#13) ∧
    decode 0b1_010101_10101_00100_001_0101_1_1100011#32 = .legal (.bne 4 21 0x1AAA#13) ∧
    decode 0b0_000000_10110_00101_100_0000_1_1100011#32 = .legal (.blt 5 22 0x800#13) ∧
    decode 0b1_000000_10111_00110_101_0000_0_1100011#32 = .legal (.bge 6 23 0x1000#13) ∧
    decode 0b0_111111_11000_00111_110_1111_0_1100011#32 = .legal (.bltu 7 24 0x7FE#13) ∧
    decode 0b1_111111_00001_11111_111_1111_1_1100011#32 = .legal (.bgeu 31 1 0x1FFE#13) := by decide

theorem test_decode_load_store :
    decode 0b000100100011_10010_000_00101_0000011#32 = .legal (.lb 5 18 0x123#12) ∧
    decode 0b111111111111_10011_001_00110_0000011#32 = .legal (.lh 6 19 0xFFF#12) ∧
    decode 0b100000000000_10100_010_00111_0000011#32 = .legal (.lw 7 20 0x800#12) ∧
    decode 0b011111111111_10101_100_01000_0000011#32 = .legal (.lbu 8 21 0x7FF#12) ∧
    decode 0b010110100101_10110_101_01001_0000011#32 = .legal (.lhu 9 22 0x5A5#12) ∧
    decode 0b0010101_11100_00011_000_00101_0100011#32 = .legal (.sb 3 28 0x2A5#12) ∧
    decode 0b1111101_11011_00100_001_01011_0100011#32 = .legal (.sh 4 27 0xFAB#12) ∧
    decode 0b1000000_11010_00101_010_00000_0100011#32 = .legal (.sw 5 26 0x800#12) := by decide

theorem test_decode_alu_immediate :
    decode 0b111111111111_11110_000_00001_0010011#32 = .legal (.addi 1 30 0xFFF#12) ∧
    decode 0b000000000101_11101_010_00010_0010011#32 = .legal (.slti 2 29 0x5#12) ∧
    decode 0b100000000000_11100_011_00011_0010011#32 = .legal (.sltiu 3 28 0x800#12) ∧
    decode 0b011111111111_11011_100_00100_0010011#32 = .legal (.xori 4 27 0x7FF#12) ∧
    decode 0b000011110000_11010_110_00101_0010011#32 = .legal (.ori 5 26 0xF0#12) ∧
    decode 0b101010111100_11001_111_00110_0010011#32 = .legal (.andi 6 25 0xABC#12) ∧
    decode 0b0000000_11111_11000_001_00111_0010011#32 = .legal (.slli 7 24 31#5) ∧
    decode 0b0000000_00001_10111_101_01000_0010011#32 = .legal (.srli 8 23 1#5) ∧
    decode 0b0100000_10001_10110_101_01001_0010011#32 = .legal (.srai 9 22 17#5) := by decide

theorem test_decode_alu_register :
    decode 0b0000000_01011_11111_000_00001_0110011#32 = .legal (.add 1 31 11) ∧
    decode 0b0100000_01100_11110_000_00010_0110011#32 = .legal (.sub 2 30 12) ∧
    decode 0b0000000_01101_11101_001_00011_0110011#32 = .legal (.sll 3 29 13) ∧
    decode 0b0000000_01110_11100_010_00100_0110011#32 = .legal (.slt 4 28 14) ∧
    decode 0b0000000_01111_11011_011_00101_0110011#32 = .legal (.sltu 5 27 15) ∧
    decode 0b0000000_10000_11010_100_00110_0110011#32 = .legal (.xor 6 26 16) ∧
    decode 0b0000000_10001_11001_101_00111_0110011#32 = .legal (.srl 7 25 17) ∧
    decode 0b0100000_10010_11000_101_01000_0110011#32 = .legal (.sra 8 24 18) ∧
    decode 0b0000000_10011_10111_110_01001_0110011#32 = .legal (.or 9 23 19) ∧
    decode 0b0000000_10100_10110_111_01010_0110011#32 = .legal (.and 10 22 20) := by decide

theorem test_decode_system_csr :
    decode 0b000000000000_00000_000_00000_1110011#32 = .legal (.ecall) ∧
    decode 0b000000000001_00000_000_00000_1110011#32 = .legal (.ebreak) ∧
    decode 0b001100000000_10001_001_00101_1110011#32 = .legal (.csrrw 5 0x300#12 17) ∧
    decode 0b111100010100_10010_010_00110_1110011#32 = .legal (.csrrs 6 0xF14#12 18) ∧
    decode 0b001101000010_10011_011_00111_1110011#32 = .legal (.csrrc 7 0x342#12 19) ∧
    decode 0b001100000001_11111_101_01000_1110011#32 = .legal (.csrrwi 8 0x301#12 31) ∧
    decode 0b111111111111_00001_110_01001_1110011#32 = .legal (.csrrsi 9 0xFFF#12 1) ∧
    decode 0b001100000101_10000_111_01010_1110011#32 = .legal (.csrrci 10 0x305#12 16) := by decide

/-- One illegal word of every item of R90 (the vectors named, or their neighbours). -/
theorem test_decode_illegal :
    decode 0x00000000#32 = .illegal .unknownOpcode ∧ decode 0xFFFFFFFF#32 = .illegal .unknownOpcode ∧  -- V138, V139
    decode 0x0000000F#32 = .illegal .unknownOpcode ∧ decode 0x00000001#32 = .illegal .unknownOpcode ∧  -- V140, V142
    decode 0x000110E7#32 = .illegal .jalrFunct3 ∧  -- V13
    decode 0x00013283#32 = .illegal .loadFunct3 ∧  -- V30
    decode 0x00613023#32 = .illegal .storeFunct3 ∧  -- V39
    decode 0x0020A863#32 = .illegal .branchFunct3 ∧  -- V114
    decode 0x40409193#32 = .illegal .shiftFunct7 ∧ decode 0x0240D193#32 = .illegal .shiftFunct7 ∧  -- V67, V68
    decode 0x022081B3#32 = .illegal .aluFunct ∧ decode 0x402091B3#32 = .illegal .aluFunct ∧  -- V96, V97
    decode 0x00200073#32 = .illegal .systemWord ∧ decode 0x000000F3#32 = .illegal .systemWord ∧  -- V132, V133
    decode 0x30200073#32 = .illegal .systemWord ∧ decode 0x10500073#32 = .illegal .systemWord ∧  -- V134, V135
    decode 0x30004073#32 = .illegal .systemFunct3 ∧ decode 0xC0004073#32 = .illegal .systemFunct3 ∧  -- V136, V137
    (decodeBytes [0x13#8, 0#8, 0#8]).1 = .illegal .truncated := by decide

/-- A table row's bits are laid out little-endian and decoded; bits above `nbits` are 0 (V6's word). -/
theorem test_decodeTableWord : decodeTableWord 32 0x008000EF = some (.jal 1 8#21) ∧
    decodeTableWord 32 0 = none ∧ decodeTableWord 8 0x1FF13 = some (.addi 0 0 0#12) := by decide

/-- A word placed at the reset `pc` is run by the next step (V1's word, at `pc` 0). -/
theorem test_withFetchWord : regAfter 1 (State.reset.withFetchWord 32 0x112230B7) =
    some (0x11223000#32, 0x4#32, 1#64) := by decide

/-! ## One step of the vectors of 95_test_vectors.md -/

theorem test_lui_V1 : regAfter 1 (vec 0x112230B7#32 []) =
    some (0x11223000#32, 0x104#32, 1#64) := by decide
theorem test_lui_V3 : regAfter 0 (vec 0x12345037#32 []) =
    some (0x0#32, 0x104#32, 1#64) := by decide
theorem test_auipc_V4 : regAfter 3 (vec 0x00001197#32 []) =
    some (0x1100#32, 0x104#32, 1#64) := by decide
theorem test_auipc_V5 : regAfter 3 (vec 0xFFFFF197#32 []) =
    some (0xFFFFF100#32, 0x104#32, 1#64) := by decide
theorem test_jal_V6 : regAfter 1 { start 0x1000#32 [] (Memory.writeLE [] 0x1000 0x008000EF#32 4) with
      cfg := { Config.default with memCapacity := 0x2000 } } = some (0x1004#32, 0x1008#32, 1#64) := by decide
theorem test_jal_V9 : regAfter 1 (vec 0x006000EF#32 []) =
    some (0x104#32, 0x106#32, 1#64) := by decide
theorem test_jalr_V11 : regAfter 1 (vec 0x000080E7#32 [(1, 0x400#32)]) =
    some (0x104#32, 0x400#32, 1#64) := by decide
theorem test_jalr_V12 : regAfter 0 (vec 0xFFF10067#32 [(2, 0x300#32)]) =
    some (0x0#32, 0x2FE#32, 1#64) := by decide
theorem test_beq_V98 : regAfter 0 (vec 0x00208863#32 [(1, 0x5#32), (2, 0x5#32)]) =
    some (0x0#32, 0x110#32, 1#64) := by decide
theorem test_beq_V101 : regAfter 0 (vec 0x80000063#32 []) =
    some (0x0#32, 0xFFFFF100#32, 1#64) := by decide
theorem test_bne_V103 : regAfter 0 (vec 0xFE209CE3#32 [(1, 0x5#32), (2, 0x6#32)]) =
    some (0x0#32, 0xF8#32, 1#64) := by decide
theorem test_bne_V104 : regAfter 0 (vec 0xFE209CE3#32 [(1, 0x6#32), (2, 0x6#32)]) =
    some (0x0#32, 0x104#32, 1#64) := by decide
theorem test_blt_V105 : regAfter 0 (vec 0x0020C863#32 [(1, 0xFFFFFFFF#32), (2, 0x1#32)]) =
    some (0x0#32, 0x110#32, 1#64) := by decide
theorem test_blt_V106 : regAfter 0 (vec 0x0020C863#32 [(1, 0x1#32), (2, 0xFFFFFFFF#32)]) =
    some (0x0#32, 0x104#32, 1#64) := by decide
theorem test_bge_V108 : regAfter 0 (vec 0x0020D863#32 [(1, 0x1#32), (2, 0x1#32)]) =
    some (0x0#32, 0x110#32, 1#64) := by decide
theorem test_bge_V109 : regAfter 0 (vec 0x0020D863#32 [(1, 0x80000000#32), (2, 0x7FFFFFFF#32)]) =
    some (0x0#32, 0x104#32, 1#64) := by decide
theorem test_bltu_V110 : regAfter 0 (vec 0x0020E863#32 [(1, 0xFFFFFFFF#32), (2, 0x1#32)]) =
    some (0x0#32, 0x104#32, 1#64) := by decide
theorem test_bltu_V111 : regAfter 0 (vec 0x0020E863#32 [(1, 0x1#32), (2, 0xFFFFFFFF#32)]) =
    some (0x0#32, 0x110#32, 1#64) := by decide
theorem test_bgeu_V112 : regAfter 0 (vec 0x0020F863#32 [(1, 0xFFFFFFFF#32), (2, 0x1#32)]) =
    some (0x0#32, 0x110#32, 1#64) := by decide
theorem test_bgeu_V113 : regAfter 0 (vec 0x0020F863#32 [(1, 0x0#32), (2, 0x1#32)]) =
    some (0x0#32, 0x104#32, 1#64) := by decide
theorem test_lb_V14 : regAfter 5 (vec 0x00010283#32 [(2, 0x200#32)] dataMem) =
    some (0xFFFFFF80#32, 0x104#32, 1#64) := by decide
theorem test_lb_V24 : haltAfter (step (vec 0x00010283#32 [(2, 0x1000#32)] dataMem)) =
    some (.halted, .loadOutOfRange, 0x1000#32, 0x100#32, 0#64) := by decide
theorem test_lh_V17 : regAfter 5 (vec 0x00111283#32 [(2, 0x200#32)] dataMem) =
    some (0x34FF#32, 0x104#32, 1#64) := by decide
theorem test_lh_V22 : haltAfter (step (vec 0xFFF11283#32 [(2, 0x1000#32)] dataMem)) =
    some (.halted, .loadOutOfRange, 0xFFF#32, 0x100#32, 0#64) := by decide
theorem test_lw_V19 : regAfter 5 (vec 0xFFC12283#32 [(2, 0x1000#32)] dataMem) =
    some (0xDDCCBBAA#32, 0x104#32, 1#64) := by decide
theorem test_lw_V20 : haltAfter (step (vec 0xFFD12283#32 [(2, 0x1000#32), (5, 0x55#32)] dataMem)) =
    some (.halted, .loadOutOfRange, 0xFFD#32, 0x100#32, 0#64) := by decide
theorem test_lbu_V25 : regAfter 5 (vec 0x00014283#32 [(2, 0x200#32)] dataMem) =
    some (0x80#32, 0x104#32, 1#64) := by decide
theorem test_lbu_V26 : haltAfter (step (vec 0xFFF04283#32 [] dataMem)) =
    some (.halted, .loadOutOfRange, 0xFFFFFFFF#32, 0x100#32, 0#64) := by decide
theorem test_lhu_V27 : regAfter 5 (vec 0x00015283#32 [(2, 0x200#32)] dataMem) =
    some (0xFF80#32, 0x104#32, 1#64) := by decide
theorem test_lhu_S9 : haltAfter (step (vec 0x00015183#32 [(2, 0xFFF#32)])) =
    some (.halted, .loadOutOfRange, 0xFFF#32, 0x100#32, 0#64) := by decide
theorem test_sb_V31 : memAfter 0x200 2 (vec 0x00610023#32 [(2, 0x200#32), (6, 0x12345678#32)] tailMem) =
    some ([0x78#8, 0x00#8], 0x104#32, 1#64) := by decide
theorem test_sb_S9 : haltAfter (step (vec 0x00110023#32 [(1, 0x11223344#32), (2, 0x1000#32)])) =
    some (.halted, .storeOutOfRange, 0x1000#32, 0x100#32, 0#64) := by decide
theorem test_sh_V32 : memAfter 0x200 3 (vec 0x00611023#32 [(2, 0x200#32), (6, 0x12345678#32)] tailMem) =
    some ([0x78#8, 0x56#8, 0x00#8], 0x104#32, 1#64) := by decide
theorem test_sh_V36 : haltAfter (step (vec 0xFE611FA3#32 [(2, 0x1000#32), (6, 0x12345678#32)] tailMem)) =
    some (.halted, .storeOutOfRange, 0xFFF#32, 0x100#32, 0#64) := by decide
theorem test_sw_V35 : memAfter 0xFFB 5 (vec 0xFE612E23#32 [(2, 0x1000#32), (6, 0x12345678#32)] tailMem) =
    some ([0x00#8, 0x78#8, 0x56#8, 0x34#8, 0x12#8], 0x104#32, 1#64) := by decide
theorem test_sw_V34 : memAfter 0x200 6 (vec 0x006120A3#32 [(2, 0x200#32), (6, 0x12345678#32)] tailMem) =
    some ([0x00#8, 0x78#8, 0x56#8, 0x34#8, 0x12#8, 0x00#8], 0x104#32, 1#64) := by decide
theorem test_addi_V40 : regAfter 3 (vec 0xFFF08193#32 [(1, 0x0#32)]) =
    some (0xFFFFFFFF#32, 0x104#32, 1#64) := by decide
theorem test_addi_V41 : regAfter 3 (vec 0x00108193#32 [(1, 0x7FFFFFFF#32)]) =
    some (0x80000000#32, 0x104#32, 1#64) := by decide
theorem test_slti_V46 : regAfter 3 (vec 0xFFF0A193#32 [(1, 0x0#32)]) =
    some (0x0#32, 0x104#32, 1#64) := by decide
theorem test_slti_V47 : regAfter 3 (vec 0x8000A193#32 [(1, 0x80000000#32)]) =
    some (0x1#32, 0x104#32, 1#64) := by decide
theorem test_sltiu_V50 : regAfter 3 (vec 0xFFF0B193#32 [(1, 0xFFFFFFFE#32)]) =
    some (0x1#32, 0x104#32, 1#64) := by decide
theorem test_sltiu_V51 : regAfter 3 (vec 0xFFF0B193#32 [(1, 0xFFFFFFFF#32)]) =
    some (0x0#32, 0x104#32, 1#64) := by decide
theorem test_xori_V53 : regAfter 3 (vec 0x7FF0C193#32 [(1, 0xFFFFFFFF#32)]) =
    some (0xFFFFF800#32, 0x104#32, 1#64) := by decide
theorem test_ori_V54 : regAfter 3 (vec 0x8000E193#32 [(1, 0x1#32)]) =
    some (0xFFFFF801#32, 0x104#32, 1#64) := by decide
theorem test_andi_V57 : regAfter 3 (vec 0xFF00F193#32 [(1, 0x12345678#32)]) =
    some (0x12345670#32, 0x104#32, 1#64) := by decide
theorem test_slli_V58 : regAfter 3 (vec 0x00409193#32 [(1, 0x80000001#32)]) =
    some (0x10#32, 0x104#32, 1#64) := by decide
theorem test_slli_V59 : regAfter 3 (vec 0x01F09193#32 [(1, 0x3#32)]) =
    some (0x80000000#32, 0x104#32, 1#64) := by decide
theorem test_srli_V61 : regAfter 3 (vec 0x0040D193#32 [(1, 0x80000000#32)]) =
    some (0x8000000#32, 0x104#32, 1#64) := by decide
theorem test_srai_V63 : regAfter 3 (vec 0x4040D193#32 [(1, 0x80000000#32)]) =
    some (0xF8000000#32, 0x104#32, 1#64) := by decide
theorem test_srai_V65 : regAfter 3 (vec 0x41F0D193#32 [(1, 0x7FFFFFFF#32)]) =
    some (0x0#32, 0x104#32, 1#64) := by decide
theorem test_add_V69 : regAfter 3 (vec 0x002081B3#32 [(1, 0xFFFFFFFF#32), (2, 0x1#32)]) =
    some (0x0#32, 0x104#32, 1#64) := by decide
theorem test_sub_V72 : regAfter 3 (vec 0x402081B3#32 [(1, 0x0#32), (2, 0x1#32)]) =
    some (0xFFFFFFFF#32, 0x104#32, 1#64) := by decide
theorem test_sub_V73 : regAfter 3 (vec 0x402081B3#32 [(1, 0x80000000#32), (2, 0x1#32)]) =
    some (0x7FFFFFFF#32, 0x104#32, 1#64) := by decide
theorem test_sll_V75 : regAfter 3 (vec 0x002091B3#32 [(1, 0x1#32), (2, 0x21#32)]) =
    some (0x2#32, 0x104#32, 1#64) := by decide
theorem test_sll_V77 : regAfter 3 (vec 0x002091B3#32 [(1, 0xAB#32), (2, 0x20#32)]) =
    some (0xAB#32, 0x104#32, 1#64) := by decide
theorem test_slt_V78 : regAfter 3 (vec 0x0020A1B3#32 [(1, 0xFFFFFFFF#32), (2, 0x1#32)]) =
    some (0x1#32, 0x104#32, 1#64) := by decide
theorem test_slt_V80 : regAfter 3 (vec 0x0020A1B3#32 [(1, 0x7FFFFFFF#32), (2, 0x80000000#32)]) =
    some (0x0#32, 0x104#32, 1#64) := by decide
theorem test_sltu_V81 : regAfter 3 (vec 0x0020B1B3#32 [(1, 0xFFFFFFFF#32), (2, 0x1#32)]) =
    some (0x0#32, 0x104#32, 1#64) := by decide
theorem test_sltu_V82 : regAfter 3 (vec 0x002031B3#32 [(2, 0x7#32)]) =
    some (0x1#32, 0x104#32, 1#64) := by decide
theorem test_xor_V84 : regAfter 3 (vec 0x0020C1B3#32 [(1, 0xFF00FF00#32), (2, 0xFF00FF0#32)]) =
    some (0xF0F0F0F0#32, 0x104#32, 1#64) := by decide
theorem test_srl_V86 : regAfter 3 (vec 0x0020D1B3#32 [(1, 0x80000000#32), (2, 0xFFFFFFE4#32)]) =
    some (0x8000000#32, 0x104#32, 1#64) := by decide
theorem test_sra_V89 : regAfter 3 (vec 0x4020D1B3#32 [(1, 0x80000000#32), (2, 0x20#32)]) =
    some (0x80000000#32, 0x104#32, 1#64) := by decide
theorem test_sra_V91 : regAfter 3 (vec 0x4020D1B3#32 [(1, 0x40000000#32), (2, 0x1E#32)]) =
    some (0x1#32, 0x104#32, 1#64) := by decide
theorem test_or_V92 : regAfter 3 (vec 0x0020E1B3#32 [(1, 0xF0#32), (2, 0xF#32)]) =
    some (0xFF#32, 0x104#32, 1#64) := by decide
theorem test_and_V93 : regAfter 3 (vec 0x0020F1B3#32 [(1, 0xFF00FF00#32), (2, 0xFF00FF0#32)]) =
    some (0xF000F00#32, 0x104#32, 1#64) := by decide
theorem test_add_V71 : regAfter 1 (vec 0x001080B3#32 [(1, 0x40000000#32)]) =
    some (0x80000000#32, 0x104#32, 1#64) := by decide
theorem test_ecall_V130 : haltAfter (step (vec 0x00000073#32 [])) =
    some (.halted, .ecall, 0x100#32, 0x100#32, 0#64) := by decide
theorem test_ebreak_V131 : haltAfter (step (vec 0x00100073#32 [])) =
    some (.halted, .ebreak, 0x100#32, 0x100#32, 0#64) := by decide
theorem test_csrrw_V124 : csrAfter 1 0x300#12 ((vec 0x300090F3#32 [(1, 0x55#32)]).csrWrite 0x300#12 0xAA#32) =
    some (0xAA#32, some 0x55#32, 0x104#32) := by decide
theorem test_csrrw_V128 : haltAfter (step (vec 0xC00092F3#32 [(1, 0x1#32)])) =
    some (.halted, .csrUndefined, 0xC00#32, 0x100#32, 0#64) := by decide
theorem test_csrrs_V117 : csrAfter 5 0x300#12 ((vec 0x3000A2F3#32 [(1, 0xF0#32)]).csrWrite 0x300#12 0xF#32) =
    some (0xF#32, some 0xFF#32, 0x104#32) := by decide
theorem test_csrrs_V127 : haltAfter (step (vec 0x305022F3#32 [(5, 0x77#32)])) =
    some (.halted, .csrUndefined, 0x305#32, 0x100#32, 0#64) := by decide
theorem test_csrrc_V118 : csrAfter 5 0x300#12 ((vec 0x3000B2F3#32 [(1, 0xF#32)]).csrWrite 0x300#12 0xFF#32) =
    some (0xFF#32, some 0xF0#32, 0x104#32) := by decide
theorem test_csrrwi_V120 : csrAfter 5 0x342#12 ((vec 0x342FD2F3#32 []).csrWrite 0x342#12 0x7#32) =
    some (0x7#32, some 0x1F#32, 0x104#32) := by decide
theorem test_csrrwi_V129 : haltAfter (step (vec 0x7FF05073#32 [])) =
    some (.halted, .csrUndefined, 0x7FF#32, 0x100#32, 0#64) := by decide
theorem test_csrrsi_V121 : csrAfter 5 0x301#12 ((vec 0x3012E2F3#32 []).csrWrite 0x301#12 0x10#32) =
    some (0x10#32, some 0x15#32, 0x104#32) := by decide
theorem test_csrrci_V122 : csrAfter 5 0x301#12 ((vec 0x3010F2F3#32 []).csrWrite 0x301#12 0x13#32) =
    some (0x13#32, some 0x12#32, 0x104#32) := by decide

/-! ## Fetch, step and host interface (vectors C1 to C9), reset -/

theorem test_fetch_C1 : haltAfter (step (start 0x102#32 [] [])) =
    some (.halted, .fetchMisaligned, 0x102#32, 0x102#32, 0#64) := by decide
theorem test_fetch_C2 : haltAfter (step (start 0x1000#32 [] [])) =
    some (.halted, .fetchOutOfRange, 0x1000#32, 0x1000#32, 0#64) := by decide
theorem test_fetch_C3 : haltAfter (step (start 0xFFE#32 [] [])) =
    some (.halted, .fetchMisaligned, 0xFFE#32, 0xFFE#32, 0#64) := by decide
theorem test_fetch_C4 : regAfter 0 (start 0xFFC#32 [] [(0xFFC, 0x13#8)]) = some (0#32, 0x1000#32, 1#64) := by decide
theorem test_fetch_C5 : haltAfter (step (start 0xFFFFFFFC#32 [] [])) =
    some (.halted, .fetchOutOfRange, 0xFFFFFFFC#32, 0xFFFFFFFC#32, 0#64) := by decide
theorem test_illegal_V139 : haltAfter (step (vec 0xFFFFFFFF#32 [(1, 1#32)])) =
    some (.halted, .illegalInstruction, 0xFFFFFFFF#32, 0x100#32, 0#64) := by decide
theorem test_exec_C7 : haltAfter (execWord 0x00000013#32 (start 0x102#32 [] [])) =
    some (.halted, .fetchMisaligned, 0x102#32, 0x102#32, 0#64) := by decide
theorem test_exec_C8 : (after (execWord 0x00000013#32 (start 0x1000#32 [] []))).map (fun t => (t.pc, t.icount)) =
    some (0x1004#32, 1#64) := by decide

/-- The end state of vector V130. -/
def halted130 : State := halt .ecall 0x100#32 (vec 0x00000073#32 [])

theorem test_halted_C6_C9 : after (step halted130) = some halted130 ∧
    after (execWord 0xFFFFFFFF#32 halted130) = some halted130 := by decide
theorem test_store_own_bytes_C10 : memAfter 0x100 4 (vec 0x00112023#32 [(1, 0x13#32), (2, 0x100#32)]) =
    some ([0x13#8, 0#8, 0#8, 0#8], 0x104#32, 1#64) := by decide
theorem test_reset_RS3 :
    let s := resetCore (((start 0x40#32 [(5, 7#32)] tailMem).csrWrite 0x300#12 0x1234#32).csrWrite 0xF14#12 9#32)
    s.csrRead 0x300#12 = some 0#32 ∧ s.csrRead 0xF14#12 = some 0#32 ∧ s.readReg 5 = 0#32 ∧ s.pc = 0#32 ∧
      s.mem = tailMem := by decide
/-- Host accessors and memory access of a launched core (R47, R65; an address at the capacity names no byte). -/
theorem test_host : getPc (vec 0x73#32 []) = 0x100#32 ∧ isHalted halted130 = true ∧
    getHaltReason halted130 = (.ecall, 0x100#32) ∧ getInstructionCount halted130 = 0#64 ∧
    (dump (start 0#32 [(31, 7#32)] [])).getLast? = some 7#32 ∧ hostPeek 0xFFF (vec 0x73#32 [] tailMem) = some 0xDD#8 ∧
    hostPeek 0x1000 State.reset = none ∧ (hostPoke 0x10 5#8 State.reset).mem = [(0x10, 5#8)] := by decide
theorem test_decoderOutputs : (decoderOutputs 0xFE209CE3#32).immB = 0xFFFFFFF8#32 ∧
    (decoderOutputs 0x112230B7#32).immU = 0x11223000#32 ∧ (decoderOutputs 0x4040D193#32).shamt = 4#5 := by decide

/-! ## Witnesses: for each statement with hypotheses, a state and operands that meet them -/

theorem test_witness_DecodeOfEncodeIsTheInstruction : (Instr.beq 1 2 0x1FF8#13).wf = true := by decide
theorem test_witness_EncodeOfDecodeIsTheWord : decode 0xFE009CE3#32 = .legal (.bne 1 0 0x1FF8#13) := by decide
theorem test_witness_WordsDecodeByTheOpcodeTable :
    decode 0x402081B3#32 = .legal (.sub 3 1 2) ∧ ⟨"SUB", 0x40000033#32, 0xFE00707F#32⟩ ∈ opcodeRows ∧
      0x402081B3#32 &&& 0xFE00707F#32 = 0x40000033#32 := by decide
theorem test_witness_BytesDecodeLittleEndian : [0x13#8, 0#8, 0#8].length < 4 := by decide

/-- A RUNNING state at 0xFFC, the last word of memory, which holds `addi x0, x0, 0`. -/
def lastWord : State := start 0xFFC#32 [] [(0xFFC, 0x13#8)]

theorem test_witness_StepRunsTheDecodedInstruction :
    lastWord.hstate = .running ∧ lastWord.pc.toNat % 4 = 0 ∧ lastWord.pc.toNat + 4 ≤ lastWord.cfg.memCapacity ∧
      (decodeBytes [Memory.read lastWord.mem 0xFFC, Memory.read lastWord.mem 0xFFD,
        Memory.read lastWord.mem 0xFFE, Memory.read lastWord.mem 0xFFF]).1 = .legal (.addi 0 0 0#12) := by decide
theorem test_witness_OnlyResetLeavesHalted : halted130.hstate = .halted := by decide
theorem test_witness_MisalignedFetchHalts :
    (start 0xFFE#32 [] []).hstate = .running ∧ (start 0xFFE#32 [] []).pc.toNat % 4 ≠ 0 := by decide
theorem test_witness_FetchOutOfRangeHalts :
    (start 0x1000#32 [] []).hstate = .running ∧ (start 0x1000#32 [] []).pc.toNat % 4 = 0 ∧
      (start 0x1000#32 [] []).cfg.memCapacity < (start 0x1000#32 [] []).pc.toNat + 4 := by decide
theorem test_witness_IllegalWordHalts :
    (start 0xFFC#32 [] []).hstate = .running ∧ (start 0xFFC#32 [] []).pc.toNat % 4 = 0 ∧
      (start 0xFFC#32 [] []).pc.toNat + 4 ≤ (start 0xFFC#32 [] []).cfg.memCapacity ∧
      decode ((start 0xFFC#32 [] []).memRead 0xFFC#32 4) = .illegal .unknownOpcode := by decide
theorem test_witness_HaltingStepChangesOnlyTheHaltState :
    ∃ t, (vec 0x73#32 []).hstate = .running ∧ step (vec 0x73#32 []) = .next t ∧ t.hstate = .halted :=
  ⟨halted130, rfl, rfl, rfl⟩
/-- A branch that is not taken, and one that is. -/
theorem test_witness_RetiringInstructionsSetThePc :
    ∃ t u, lastWord.hstate = .running ∧ exec (.bne 0 0 8#13) lastWord = .next t ∧ t.hstate = .running ∧
      ¬ transfers (.bne 0 0 8#13) lastWord ∧ exec (.beq 0 0 8#13) lastWord = .next u ∧ u.hstate = .running ∧
      transfers (.beq 0 0 8#13) lastWord :=
  ⟨_, _, rfl, rfl, rfl, fun h => h rfl, rfl, rfl, rfl⟩
theorem test_witness_IcountCountsRetiredSteps :
    ∃ t, step lastWord = .next t ∧ lastWord.hstate = .running ∧ t.hstate = .running := ⟨_, rfl, rfl, rfl⟩
theorem test_witness_OnlyTheNamedRegisterIsWritten :
    ∃ t, exec (.lui 1 1#20) lastWord = .next t ∧ (Instr.lui 1 1#20).destReg ≠ some 2 := ⟨_, rfl, by decide⟩
theorem test_witness_OnlyAStoresOwnBytesChange :
    ∃ t, exec (.sh 0 1 8#12) lastWord = .next t ∧ ∀ rs1 imm n, (Instr.sh 0 1 8#12).storeForm = some (rs1, imm, n) →
      10 < (effAddr rs1 imm lastWord).toNat ∨ (effAddr rs1 imm lastWord).toNat + n ≤ 10 := by
  refine ⟨_, rfl, fun rs1 imm n h => ?_⟩
  cases h
  decide
theorem test_witness_OnlyTheNamedCsrIsWritten :
    ∃ t, exec (.csrrw 1 0x300#12 2) lastWord = .next t ∧ (Instr.csrrw 1 0x300#12 2).csrAddr? ≠ some 0x301#12 :=
  ⟨_, rfl, by decide⟩
theorem test_witness_InstructionHaltsExactlyOnItsOwnCondition :
    haltCondition .ecall lastWord = some (.ecall, 0xFFC#32) ∧
      haltCondition (.lw 1 0 0xFFC#12) lastWord = some (.loadOutOfRange, 0xFFFFFFFC#32) ∧
      haltCondition (.sb 0 1 0x7FF#12) lastWord = none ∧
      haltCondition (.csrrs 1 0x305#12 0) lastWord = some (.csrUndefined, 0x305#32) := by decide
theorem test_witness_JumpsLinkAndGoToTheirTarget : 0b111#3 ≠ 0b000#3 := by decide

/-- `x2` holds the capacity; the offsets below reach the last address in range and the first out of it. -/
def atCapacity : State := start 0#32 [(2, 0x1000#32)] dataMem

theorem test_witness_LoadsWriteTheExtendedBytesOrHalt :
    (effAddr 2 0xFFF#12 atCapacity).toNat + 1 ≤ atCapacity.cfg.memCapacity ∧
      atCapacity.cfg.memCapacity < (effAddr 2 0#12 atCapacity).toNat + 1 ∧
      (effAddr 2 0xFFE#12 atCapacity).toNat + 2 ≤ atCapacity.cfg.memCapacity ∧
      atCapacity.cfg.memCapacity < (effAddr 2 0xFFF#12 atCapacity).toNat + 2 ∧
      (effAddr 2 0xFFC#12 atCapacity).toNat + 4 ≤ atCapacity.cfg.memCapacity ∧
      atCapacity.cfg.memCapacity < (effAddr 2 0xFFD#12 atCapacity).toNat + 4 := by decide
theorem test_witness_StoresWriteTheLowBytesOrHalt :
    (effAddr 2 0xFFC#12 atCapacity).toNat + 4 ≤ atCapacity.cfg.memCapacity ∧
      atCapacity.cfg.memCapacity < (effAddr 0 0xFFF#12 atCapacity).toNat + 1 := by decide
theorem test_witness_ImmediateShiftResults :
    0b0000001#7 ≠ 0b0000000#7 ∧ 0b0000001#7 ≠ 0b0100000#7 := by decide
theorem test_witness_CsrRegisterFormsReadAndModify :
    State.reset.csrRead 0xF14#12 = some 0#32 ∧ State.reset.csrRead 0xF15#12 = none := by decide
theorem test_witness_CsrImmediateFormsReadAndModify :
    State.reset.csrRead 0x342#12 = some 0#32 ∧ State.reset.csrRead 0x341#12 = none := by decide

theorem test_reset_inv : State.reset.Inv := ⟨by decide, rfl, rfl, rfl, rfl, rfl⟩
theorem test_lastWord_inv : lastWord.Inv := ⟨by decide, rfl, rfl, rfl, rfl, rfl⟩

theorem test_witness_RegisteredCsrsAreTheParameter : State.reset.Inv := test_reset_inv
theorem test_witness_CsrrsOfZeroReadsBackWhatCsrrwWrote :
    State.reset.csrRead 0x300#12 = some 0#32 ∧ (5 : RegIdx) ≠ 0#5 ∧ (6 : RegIdx) ≠ 0#5 := by decide
theorem test_witness_RangeCheckIsExact : (0xFFC#32).toNat + 4 = State.reset.cfg.memCapacity ∧
    (0xFFD#32).toNat + 4 = State.reset.cfg.memCapacity + 1 := by decide
theorem test_witness_MemWriteIsLittleEndian :
    Memory.writeLE [] 0 0x11223344#32 4 = [(0, 0x44#8), (1, 0x33#8), (2, 0x22#8), (3, 0x11#8)] ∧
      (0 < 4) ∧ (4 < 0 ∨ 0 + 4 ≤ 4) := by decide  -- S3
theorem test_witness_MemReadAfterMemWrite :
    4 ≤ 4 ∧ Memory.readLE (Memory.writeLE [] 0 0x11223344#32 4) 0 4 = 0x11223344 := by decide  -- S3
theorem test_witness_StoreThenLoadGivesTheStoredValue : (3 : RegIdx) ≠ 0#5 ∧
    (effAddr 2 0xFFC#12 atCapacity).toNat + 4 ≤ atCapacity.cfg.memCapacity := by decide
/-- `x1` holds the address of the instruction after the one at `pc`. -/
def beforeStore : State := start 0xFF8#32 [(1, 0xFFC#32)] []

theorem test_witness_StoreOverTheNextInstructionIsExecuted :
    beforeStore.hstate = .running ∧ beforeStore.pc.toNat % 4 = 0 ∧
      effAddr 1 0#12 beforeStore = beforeStore.pc + 4#32 ∧
      (effAddr 1 0#12 beforeStore).toNat + 4 ≤ beforeStore.cfg.memCapacity := by decide
theorem test_witness_CanonicalMemoriesAreEqualWhenTheyReadAlike :
    Memory.wf dataMem = true ∧ Memory.wf (Memory.write (Memory.write dataMem 0x200 0#8) 0x200 0x80#8) = true ∧
      ∀ a : Nat, Memory.read dataMem a = Memory.read (Memory.write (Memory.write dataMem 0x200 0#8) 0x200 0x80#8) a :=
  ⟨by decide, by decide, fun _ => rfl⟩
theorem test_witness_RegisterZeroIsHardwired : (31 : RegIdx) ≠ 0#5 := by decide
theorem test_witness_HaltCausesHaveTheirCodes : HaltCause.ebreak.code = HaltCause.ebreak.code := by decide
theorem test_witness_ResetRestoresAllButMemory : lastWord.Inv := test_lastWord_inv
theorem test_witness_ExecWordAgreesWithStep :
    halted130.hstate = .halted ∧ (start 0x102#32 [] []).hstate = .running ∧ (start 0x102#32 [] []).pc.toNat % 4 ≠ 0 ∧
      lastWord.hstate = .running ∧ lastWord.pc.toNat % 4 = 0 ∧
      lastWord.pc.toNat + 4 ≤ lastWord.cfg.memCapacity := by decide
theorem test_witness_PlacedWordIsTheNextExecuted : State.reset.hstate = .running ∧ State.reset.pc.toNat % 4 = 0 ∧
    State.reset.pc.toNat + 4 ≤ State.reset.cfg.memCapacity := by decide
theorem test_witness_LaunchMeetsTheInvariant : Config.default.wf = true ∧ Memory.wf dataMem = true ∧
    Memory.below Config.default.memCapacity dataMem = true := by decide
theorem test_witness_StepKeepsTheInvariant : ∃ t, lastWord.Inv ∧ step lastWord = .next t :=
  ⟨_, test_lastWord_inv, rfl⟩
theorem test_witness_RunsNeverStopAndKeepTheInvariant : lastWord.Inv := test_lastWord_inv
/-- A RUNNING state, and the HALTED one its step makes, are both precise. -/
theorem test_witness_HaltsArePrecise : ∃ t, (vec 0x73#32 []).Inv ∧ haltPrecise (vec 0x73#32 []) ∧
    step (vec 0x73#32 []) = .next t ∧ t.hstate = .halted ∧ haltPrecise halted130 :=
  ⟨halted130, ⟨by decide, rfl, rfl, rfl, rfl, rfl⟩, fun h => absurd h (by decide), rfl, rfl, fun _ => rfl⟩
theorem test_witness_HaltReasonIsTrue :
    ∃ t, (start 0x1000#32 [] []).hstate = .running ∧ step (start 0x1000#32 [] []) = .next t ∧ t.hstate = .halted :=
  ⟨_, rfl, rfl, rfl⟩
theorem test_witness_IcountIsInvisibleToPrograms : ∃ t, step lastWord = .next t := ⟨_, rfl⟩
theorem test_witness_CsrsDoNotAffectOtherInstructions :
    ∃ t, (Instr.sw 0 1 8#12).csrAddr? = none ∧ exec (.sw 0 1 8#12) lastWord = .next t := ⟨_, rfl, rfl⟩

end Sys2Proof.Tests
end

section
/-! The register file's own obligation (10_state.md, R23). -/

namespace Sys2Proof.Machine

/-- A write to `x0` is discarded: it gives back the whole state (R23). -/
@[simp] theorem writeReg_zero (s : State) (v : Word) : s.writeReg 0#5 v = s := rfl

/-- Settles O41: `x0` by its two laws; for a write to another register, a read of `x0` is 0 before and after it, and
any other read is the general read-after-write law. -/
theorem registerZeroIsHardwired : Obligations.RegisterZeroIsHardwired := by
  unfold Obligations.RegisterZeroIsHardwired
  refine fun s v => ⟨readReg_zero s, writeReg_zero s v, fun r q hr => ?_⟩
  rw [readReg_writeReg]
  by_cases hq : q = 0#5
  · subst hq
    rw [if_pos rfl, if_neg (Ne.symm hr), readReg_zero]
  · rw [if_neg hq]

end Sys2Proof.Machine
end

section
/-! A memory write's own obligation (20_memory.md, R57). -/

namespace Sys2Proof.Machine

/-- A write of `n` bytes puts byte `i` of the value at `a + i` (R57). -/
theorem read_writeLE_of_lt (m : Memory) (a : Nat) (v : Word) {n i : Nat} (hi : i < n) :
    Memory.read (Memory.writeLE m a v n) (a + i) = v.extractLsb' (8 * i) 8 := by
  rw [Memory.read_writeLE, if_pos (by omega), Nat.add_sub_cancel_left]

/-- A write of `n` bytes changes no byte outside the `n` addresses from `a` (R57). -/
theorem read_writeLE_of_outside (m : Memory) {a : Nat} (v : Word) {n b : Nat} (hb : b < a ∨ a + n ≤ b) :
    Memory.read (Memory.writeLE m a v n) b = Memory.read m b := by
  rw [Memory.read_writeLE, if_neg (by omega)]

/-- Settles O36: the two sides of the law of a read after a write, at an address inside the range written and at one
outside it. -/
theorem memWriteIsLittleEndian : Obligations.MemWriteIsLittleEndian := by
  unfold Obligations.MemWriteIsLittleEndian
  exact fun m _ _ v => ⟨fun _ hi => read_writeLE_of_lt m _ v hi, fun _ hb => read_writeLE_of_outside m v hb⟩

end Sys2Proof.Machine
end

section
/-! The execution cycle's obligations (40_cycle.md, R102, R106, R108, R110): which halt a step makes, that a halt is
all such a step does, and where a retiring instruction leaves `pc`. -/

namespace Sys2Proof.Machine

/-! ## Halting steps -/

/-- An effect that halts a RUNNING core is a `halt`, as a commit keeps the halt state (R107, R110). -/
theorem Effect.apply_eq_halt {e : Effect} {s : State} (hs : s.hstate = .running)
    (ht : (e.apply s).hstate = .halted) : ∃ c info, e.apply s = Machine.halt c info s := by
  cases e with
  | halt c info => exact ⟨c, info, rfl⟩
  | retire w p =>
    have hr : (Effect.apply (.retire w p) s).hstate = .running := (commit_hstate w p s).trans hs
    rw [hr] at ht
    cases ht

/-- A step that halts a RUNNING core is a `halt` of that same state, wherever in the cycle it arose (R100). -/
theorem step_eq_halt {s t : State} (hs : s.hstate = .running) (h : step s = .next t) (ht : t.hstate = .halted) :
    ∃ c info, t = halt c info s := by
  obtain ⟨c, -, -, he⟩ | ⟨w, r, -, -, he⟩ | ⟨w, i, e, -, -, he, -⟩ := step_running hs
  · exact ⟨c, s.pc, Host.Outcome.next.inj (h.symm.trans he)⟩
  · exact ⟨.illegalInstruction, w, Host.Outcome.next.inj (h.symm.trans he)⟩
  · obtain rfl := Host.Outcome.next.inj (h.symm.trans he)
    exact Effect.apply_eq_halt hs ht

/-- Settles O9: the alignment check is the first of the fetch, so the step is that halt. -/
theorem misalignedFetchHalts : Obligations.MisalignedFetchHalts := by
  unfold Obligations.MisalignedFetchHalts
  intro s hs hpc
  rw [step_fails hs (fetch_misaligned hpc)]
  exact .of_halt _ _ _

/-- Settles O11: the fetch answers the word, and `execute` halts on it. -/
theorem illegalWordHalts : Obligations.IllegalWordHalts := by
  unfold Obligations.IllegalWordHalts
  intro s r hs hpc hrange hd
  rw [step_word hs (fetch_word hpc hrange), execute_illegal s hd]
  exact .of_halt _ _ _

/-- Settles O12: a halting step is a `halt`, which writes the halt_fsm alone. -/
theorem haltingStepChangesOnlyTheHaltState : Obligations.HaltingStepChangesOnlyTheHaltState := by
  unfold Obligations.HaltingStepChangesOnlyTheHaltState
  intro s t hs h ht
  obtain ⟨c, info, rfl⟩ := step_eq_halt hs h ht
  exact ⟨halt_pc c info s, halt_icount c info s, readReg_congr (halt_regs c info s), fun _ => rfl, fun _ => rfl,
    halt_cfg c info s⟩

/-! ## The `pc` of a retiring instruction -/

/-- An instruction that retires without transferring control leaves `pc + 4` (R108). -/
theorem exec_pc_of_not_transfers {i : Instr} {s t : State} (h : exec i s = .next t) (ht : t.hstate = .running)
    (hn : ¬ transfers i s) : t.pc = s.pc + 4#32 := by
  obtain ⟨e, he, fit⟩ := exec_effect i s
  obtain rfl := Host.Outcome.next.inj (h.symm.trans he)
  cases fit with
  | retires w p _ seq _ => exact (commit_pc w p s).trans (seq hn)
  | halts c info _ => cases (halt_hstate c info s).symm.trans ht

/-- A branch whose comparison holds has the one effect of moving to its target (R165). -/
theorem branchEffect_taken {op : CmpOp} {rs1 rs2 : RegIdx} {off : BitVec 13} {s : State}
    (h : compareBy op (s.readReg rs1) (s.readReg rs2) = true) :
    branchEffect op rs1 rs2 off s = .retire {} (pcRelative (immB off) s) :=
  if_pos h

/-- A taken branch commits no write and goes to its target (R165). -/
theorem finish_branchEffect_taken {op : CmpOp} {rs1 rs2 : RegIdx} {off : BitVec 13} {s : State}
    (h : compareBy op (s.readReg rs1) (s.readReg rs2) = true) :
    finish (branchEffect op rs1 rs2 off s) s = .next (commit {} (s.pc + off.signExtend 32) s) := by
  rw [branchEffect_taken h]
  rfl

/-- An instruction that transfers control commits its writes with its own target as the next `pc`: JAL and JALR
always (R122, R123), a branch by its comparison (R166 to R171). -/
theorem exec_of_transfers {i : Instr} {s : State} (h : transfers i s) :
    ∃ w, exec i s = .next (commit w (controlTarget i s) s) := by
  cases i with
  | jal rd off => exact ⟨_, rfl⟩
  | jalr rd rs1 imm => exact ⟨_, rfl⟩
  | beq rs1 rs2 off => exact ⟨_, finish_branchEffect_taken (op := .eq) (decide_eq_true h)⟩
  | bne rs1 rs2 off => exact ⟨_, finish_branchEffect_taken (op := .ne) (decide_eq_true h)⟩
  | blt rs1 rs2 off => exact ⟨_, finish_branchEffect_taken (op := .lt) (decide_eq_true h)⟩
  | bge rs1 rs2 off => exact ⟨_, finish_branchEffect_taken (op := .ge) (decide_eq_true h)⟩
  | bltu rs1 rs2 off => exact ⟨_, finish_branchEffect_taken (op := .ltu) (decide_eq_true h)⟩
  | bgeu rs1 rs2 off => exact ⟨_, finish_branchEffect_taken (op := .geu) (decide_eq_true h)⟩
  | _ => exact False.elim h

/-- Settles O14: an instruction that transfers control commits with its target, and any other that retires is
sequential. -/
theorem retiringInstructionsSetThePc : Obligations.RetiringInstructionsSetThePc := by
  unfold Obligations.RetiringInstructionsSetThePc
  refine fun i s t _ h ht => ⟨exec_pc_of_not_transfers h ht, fun htr => ?_⟩
  obtain ⟨w, he⟩ := exec_of_transfers htr
  obtain rfl := Host.Outcome.next.inj (h.symm.trans he)
  exact commit_pc w _ s

end Sys2Proof.Machine
end

section
/-! The upper immediates' own obligation (41_upper_jump.md, R120, R121): what LUI and AUIPC write, and that the words
of their U format decode to them. -/

namespace Sys2Proof.Machine

/-- The result of every instruction whose meaning is `writeRd`, the sequential case of `WritesReg.of_retire` (R108). -/
theorem WritesReg.of_writeRd (s : State) (rd : RegIdx) (v : Word) :
    WritesReg (finish (writeRd rd v s) s) s rd v (s.pc + 4#32) :=
  .of_retire s rd v (s.pc + 4#32)

/-- The opcode is the first that the dispatch tests (R76, R83). -/
theorem decode_encodeU_lui (rd : RegIdx) (imm : BitVec 20) :
    decode (encodeU imm rd 0b0110111#7) = .legal (.lui rd imm) := by
  rw [decode, if_pos (opcode_encodeU imm rd _), rdField_encodeU, fieldU_encodeU]

/-- The opcode is not LUI's, and the second that the dispatch tests (R76, R83). -/
theorem decode_encodeU_auipc (rd : RegIdx) (imm : BitVec 20) :
    decode (encodeU imm rd 0b0010111#7) = .legal (.auipc rd imm) := by
  have not_lui : opcode (encodeU imm rd 0b0010111#7) ≠ 0x37#7 := by
    rw [opcode_encodeU]
    decide
  rw [decode, if_neg not_lui, if_pos (opcode_encodeU imm rd _), rdField_encodeU, fieldU_encodeU]

/-- Settles O20: each instruction is one sequential register write, of the immediate or of its sum with the old `pc`
(for `rd` = `x0` the write that is discarded); the words are `encodeU`'s. -/
theorem luiAndAuipcWriteTheUpperImmediate : Obligations.LuiAndAuipcWriteTheUpperImmediate := by
  unfold Obligations.LuiAndAuipcWriteTheUpperImmediate
  exact fun s rd imm => ⟨.of_writeRd s rd (immU imm), .of_writeRd s rd (s.pc + immU imm), decode_encodeU_lui rd imm,
    decode_encodeU_auipc rd imm⟩

end Sys2Proof.Machine
end

section
/-! The loads' and stores' own obligations (42_load_store.md, R131 to R139): what each load writes, what each store
leaves in memory, and that the words of their formats decode to them. -/

namespace Sys2Proof.Machine

/-! ## Loads -/

/-- The dispatch gives every word of opcode LOAD to `decodeLoad` (R82, R83). -/
theorem decode_of_opcode_load {w : Word} (h : opcode w = 0b0000011#7) : decode w = decodeLoad w := by
  simp [decode, h]

/-- A word of opcode LOAD decodes by its `funct3` (R86). -/
theorem decode_encodeI_load (imm : BitVec 12) (rs1 : RegIdx) (f3 : BitVec 3) (rd : RegIdx) :
    decode (encodeI imm rs1 f3 rd 0b0000011#7) =
      if f3 = 0b000#3 then .legal (.lb rd rs1 imm)
      else if f3 = 0b001#3 then .legal (.lh rd rs1 imm)
      else if f3 = 0b010#3 then .legal (.lw rd rs1 imm)
      else if f3 = 0b100#3 then .legal (.lbu rd rs1 imm)
      else if f3 = 0b101#3 then .legal (.lhu rd rs1 imm)
      else .illegal .loadFunct3 := by
  rw [decode_of_opcode_load (opcode_encodeI imm rs1 f3 rd _), decodeLoad, funct3_encodeI, rdField_encodeI,
    rs1Field_encodeI, fieldI_encodeI]

/-- A load's rule for a value `v` that its extended bytes are known to be. -/
theorem LoadRule.of_loadEffect_eq {n : Nat} {extend : BitVec (8 * n) → Word} {i : Instr} {rd rs1 : RegIdx}
    {imm : BitVec 12} {s : State} {v : Word} (h : exec i s = finish (loadEffect n extend rd rs1 imm s) s)
    (hv : extend (s.memRead (effAddr rs1 imm s) n) = v) : LoadRule i s rd (effAddr rs1 imm s) n v :=
  hv ▸ .of_loadEffect h

/-- Settles O23: each load is the shared load effect with its own width and extension; the bytes of a `MemRead` are
those of `memRead_one`, `memRead_two` and `memRead_four`, a zero extension is zeros appended above them, and each word's
literal `funct3` picks its branch of the dispatch. -/
theorem loadsWriteTheExtendedBytesOrHalt : Obligations.LoadsWriteTheExtendedBytesOrHalt := by
  unfold Obligations.LoadsWriteTheExtendedBytesOrHalt
  intro s rd rs1 imm
  have lb_sext := congrArg (BitVec.signExtend 32) (memRead_one s (effAddr rs1 imm s))
  have lh_sext := congrArg (BitVec.signExtend 32) (memRead_two s (effAddr rs1 imm s))
  have lbu_zext := (congrArg (BitVec.setWidth 32) (memRead_one s (effAddr rs1 imm s))).trans
    (zero_append_eq_setWidth 24 _).symm
  have lhu_zext := (congrArg (BitVec.setWidth 32) (memRead_two s (effAddr rs1 imm s))).trans
    (zero_append_eq_setWidth 16 _).symm
  have word := decode_encodeI_load imm rs1
  exact ⟨rfl, .of_loadEffect_eq rfl lb_sext, .of_loadEffect_eq rfl lh_sext, .of_loadEffect_eq rfl (memRead_four s _),
    .of_loadEffect_eq rfl lbu_zext, .of_loadEffect_eq rfl lhu_zext, word 0b000#3 rd, word 0b001#3 rd, word 0b010#3 rd,
    word 0b100#3 rd, word 0b101#3 rd⟩

/-! ## Stores -/

/-- The dispatch gives every word of opcode STORE to `decodeStore` (R82, R83). -/
theorem decode_of_opcode_store {w : Word} (h : opcode w = 0b0100011#7) : decode w = decodeStore w := by
  simp [decode, h]

/-- A word of opcode STORE decodes by its `funct3` (R87). -/
theorem decode_encodeS_store (imm : BitVec 12) (rs2 rs1 : RegIdx) (f3 : BitVec 3) :
    decode (encodeS imm rs2 rs1 f3 0b0100011#7) =
      if f3 = 0b000#3 then .legal (.sb rs1 rs2 imm)
      else if f3 = 0b001#3 then .legal (.sh rs1 rs2 imm)
      else if f3 = 0b010#3 then .legal (.sw rs1 rs2 imm)
      else .illegal .storeFunct3 := by
  rw [decode_of_opcode_store (opcode_encodeS imm rs2 rs1 f3 _), decodeStore, funct3_encodeS, rs1Field_encodeS,
    rs2Field_encodeS, fieldS_encodeS]

/-- The S format puts the immediate's upper seven bits on top and its lower five where `rd` stands in other formats
(R74). -/
theorem encodeS_append (hi : BitVec 7) (lo : BitVec 5) (rs2 rs1 : RegIdx) (f3 : BitVec 3) (opc : BitVec 7) :
    encodeS (hi ++ lo) rs2 rs1 f3 opc = hi ++ rs2 ++ rs1 ++ f3 ++ lo ++ opc := by
  have upper : (hi ++ lo).extractLsb' 5 7 = hi := (extract_append_high hi lo (by decide)).trans (extract_full hi)
  have lower : (hi ++ lo).extractLsb' 0 5 = lo := (extract_append_low hi lo (by decide)).trans (extract_full lo)
  rw [encodeS, upper, lower]

/-- Settles O24: each store is the shared store effect with its own width; the words are `encodeS`'s, each
decoding by its literal `funct3`. -/
theorem storesWriteTheLowBytesOrHalt : Obligations.StoresWriteTheLowBytesOrHalt := by
  unfold Obligations.StoresWriteTheLowBytesOrHalt
  intro s rs1 rs2 imm
  refine ⟨rfl, .of_storeEffect rfl, .of_storeEffect rfl, .of_storeEffect rfl, fun hi lo => ?_⟩
  have word (f3 : BitVec 3) := decode_encodeS_store (hi ++ lo) rs2 rs1 f3
  simp only [encodeS_append] at word
  exact ⟨word 0b000#3, word 0b001#3, word 0b010#3⟩

end Sys2Proof.Machine
end

section
/-! The alu's and the ALU-immediate instructions' own obligations (43_alu_immediate.md, R140 to R149): the alu's
results as numbers and as bits, what each instruction writes, and that the words of their formats decode to them. -/

namespace Sys2Proof.Machine

/-! ## The alu -/

/-- A left shift multiplies by the power of two, modulo 2^32 (R140). -/
theorem alu_sll_toNat (a b : Word) : (alu .sll a b).toNat = a.toNat * 2 ^ (b.toNat % 32) % 2 ^ 32 := by
  rw [alu, shiftAmount_eq, BitVec.toNat_shiftLeft, Nat.shiftLeft_eq]

/-- A logical right shift divides the unsigned value, rounding down (R140). -/
theorem alu_srl_toNat (a b : Word) : (alu .srl a b).toNat = a.toNat / 2 ^ (b.toNat % 32) := by
  rw [alu, shiftAmount_eq, BitVec.toNat_ushiftRight, Nat.shiftRight_eq_div_pow]

/-- An arithmetic right shift divides the signed value, rounding down (R140). -/
theorem alu_sra_toInt (a b : Word) : (alu .sra a b).toInt = a.toInt / 2 ^ (b.toNat % 32) := by
  rw [alu, shiftAmount_eq, BitVec.toInt_sshiftRight, Int.shiftRight_eq_div_pow, Nat.cast_pow, Nat.cast_ofNat]

/-- The signed comparison's result as a number (R140). -/
theorem alu_slt_toNat (a b : Word) : (alu .slt a b).toNat = if a.toInt < b.toInt then 1 else 0 := by
  rw [alu_slt, apply_ite BitVec.toNat]
  rfl

/-- The unsigned comparison's result as a number (R140). -/
theorem alu_sltu_toNat (a b : Word) : (alu .sltu a b).toNat = if a.toNat < b.toNat then 1 else 0 := by
  rw [alu_sltu, apply_ite BitVec.toNat]
  rfl

/-- Settles O25: sum, difference and the bitwise operations are those of `BitVec`; the shifts and comparisons are the
lemmas above. -/
theorem aluComputesItsTable : Obligations.AluComputesItsTable := by
  unfold Obligations.AluComputesItsTable
  exact fun a b => ⟨BitVec.toNat_add a b, BitVec.toInt_sub, alu_sll_toNat a b, alu_slt_toNat a b, alu_sltu_toNat a b,
    fun _ => BitVec.getLsbD_xor, alu_srl_toNat a b, alu_sra_toInt a b, fun _ => BitVec.getLsbD_or,
    fun _ => BitVec.getLsbD_and⟩

/-! ## What the instructions write -/

/-- The result of an instruction that is the shared effect, for a value `v` that the alu is known to give (R140). -/
theorem WritesReg.of_aluImmEffect {o : Host.Outcome State Fault Refusal} {op : AluOp} {rd rs1 : RegIdx} {b v : Word}
    {s : State} (h : o = finish (aluImmEffect op rd rs1 b s) s) (hv : alu op (s.readReg rs1) b = v) :
    WritesReg o s rd v (s.pc + 4#32) := by
  subst h hv
  exact .of_writeRd s rd (alu op (s.readReg rs1) b)

/-- The comparison with the extended immediate is one with the immediate's own signed value (R73, R142). -/
theorem alu_slt_imm12 (a : Word) (imm : BitVec 12) :
    alu .slt a (imm12 imm) = if a.toInt < imm.toInt then 1#32 else 0#32 := by
  rw [alu_slt, toInt_imm12]

/-- A left shift by an immediate amount (R147). -/
theorem alu_sll_immShamt (a : Word) (shamt : BitVec 5) : alu .sll a (immShamt shamt) = a <<< shamt.toNat := by
  rw [alu, shiftAmount_immShamt]

/-- A logical right shift by an immediate amount (R148). -/
theorem alu_srl_immShamt (a : Word) (shamt : BitVec 5) : alu .srl a (immShamt shamt) = a >>> shamt.toNat := by
  rw [alu, shiftAmount_immShamt]

/-- An arithmetic right shift by an immediate amount (R149). -/
theorem alu_sra_immShamt (a : Word) (shamt : BitVec 5) :
    alu .sra a (immShamt shamt) = a.sshiftRight shamt.toNat := by
  rw [alu, shiftAmount_immShamt]

/-! ## Their words -/

/-- The dispatch gives every word of opcode ALU-immediate to `decodeAluImm` (R82, R83). -/
theorem decode_of_opcode_aluImm {w : Word} (h : opcode w = 0b0010011#7) : decode w = decodeAluImm w := by
  simp [decode, h]

/-- Outside the two `funct3` values of the immediate shifts, a word of opcode ALU-immediate decodes by its `funct3`
alone (R89). -/
theorem decode_encodeI_aluImm (imm : BitVec 12) (rs1 : RegIdx) (f3 : BitVec 3) (rd : RegIdx)
    (not_sll : f3 ≠ 0b001#3) (not_sr : f3 ≠ 0b101#3) :
    decode (encodeI imm rs1 f3 rd 0b0010011#7) =
      if f3 = 0b000#3 then .legal (.addi rd rs1 imm)
      else if f3 = 0b010#3 then .legal (.slti rd rs1 imm)
      else if f3 = 0b011#3 then .legal (.sltiu rd rs1 imm)
      else if f3 = 0b100#3 then .legal (.xori rd rs1 imm)
      else if f3 = 0b110#3 then .legal (.ori rd rs1 imm)
      else .legal (.andi rd rs1 imm) := by
  rw [decode_of_opcode_aluImm (opcode_encodeI imm rs1 f3 rd _), decodeAluImm, funct3_encodeI, rdField_encodeI,
    rs1Field_encodeI, fieldI_encodeI]
  simp only [not_sll, not_sr, false_and, if_false]
  split_ifs with addi slti sltiu xori ori andi
  iterate 6 rfl
  -- `funct3` differs from all its eight values
  bv_omega

/-- A word of `funct3` 001 is SLLI for `funct7` zero alone (R89, R147). -/
theorem decode_encodeR_sll (f7 : BitVec 7) (shamt : BitVec 5) (rs1 rd : RegIdx) :
    decode (encodeR f7 shamt rs1 0b001#3 rd 0b0010011#7) =
      if f7 = 0b0000000#7 then .legal (.slli rd rs1 shamt) else .illegal .shiftFunct7 := by
  simp [decode_of_opcode_aluImm, opcode_encodeR, decodeAluImm, funct3_encodeR, funct7_encodeR, rdField_encodeR,
    rs1Field_encodeR, fieldShamt_encodeR]

/-- A word of `funct3` 101 is SRLI or SRAI by its `funct7` (R89, R148, R149). -/
theorem decode_encodeR_sr (f7 : BitVec 7) (shamt : BitVec 5) (rs1 rd : RegIdx) :
    decode (encodeR f7 shamt rs1 0b101#3 rd 0b0010011#7) =
      if f7 = 0b0000000#7 then .legal (.srli rd rs1 shamt)
      else if f7 = 0b0100000#7 then .legal (.srai rd rs1 shamt)
      else .illegal .shiftFunct7 := by
  simp [decode_of_opcode_aluImm, opcode_encodeR, decodeAluImm, funct3_encodeR, funct7_encodeR, rdField_encodeR,
    rs1Field_encodeR, fieldShamt_encodeR]

/-- Settles O26: each instruction is the shared effect with its own operation, and each word's literal `funct3` picks
its branch of the dispatch. -/
theorem aluImmediateResults : Obligations.AluImmediateResults := by
  unfold Obligations.AluImmediateResults
  intro s rd rs1 imm
  have word (f3 : BitVec 3) := decode_encodeI_aluImm imm rs1 f3 rd
  exact ⟨.of_aluImmEffect rfl rfl, .of_aluImmEffect rfl (alu_slt_imm12 _ imm), .of_aluImmEffect rfl (alu_sltu _ _),
    .of_aluImmEffect rfl rfl, .of_aluImmEffect rfl rfl, .of_aluImmEffect rfl rfl,
    word 0b000#3 (by decide) (by decide), word 0b010#3 (by decide) (by decide), word 0b011#3 (by decide) (by decide),
    word 0b100#3 (by decide) (by decide), word 0b110#3 (by decide) (by decide), word 0b111#3 (by decide) (by decide)⟩

/-- Settles O27: each shift is the shared effect with its own operation; its `funct7` picks the branch of the dispatch,
and any value that picks none is illegal. -/
theorem immediateShiftResults : Obligations.ImmediateShiftResults := by
  unfold Obligations.ImmediateShiftResults
  intro s rd rs1 shamt
  have sll_word (f7 : BitVec 7) := decode_encodeR_sll f7 shamt rs1 rd
  have sr_word (f7 : BitVec 7) := decode_encodeR_sr f7 shamt rs1 rd
  exact ⟨.of_aluImmEffect rfl (alu_sll_immShamt _ shamt), .of_aluImmEffect rfl (alu_srl_immShamt _ shamt),
    .of_aluImmEffect rfl (alu_sra_immShamt _ shamt), sll_word 0b0000000#7, sr_word 0b0000000#7, sr_word 0b0100000#7,
    fun f7 not_sll => (sll_word f7).trans (if_neg not_sll),
    fun f7 not_srl not_sra => (sr_word f7).trans ((if_neg not_srl).trans (if_neg not_sra))⟩

end Sys2Proof.Machine
end

section
/-! The ALU-register instructions' own obligations (44_alu_register.md, R152 to R161): what each instruction writes, and
that the words of their R format decode to them. -/

namespace Sys2Proof.Machine

/-! ## What the instructions write -/

/-- The register form is the immediate form with `x[rs2]` for `b`, read before the write to `rd` (R140, R151). -/
theorem aluRegEffect_eq_aluImmEffect (op : AluOp) (rd rs1 rs2 : RegIdx) (s : State) :
    aluRegEffect op rd rs1 rs2 s = aluImmEffect op rd rs1 (s.readReg rs2) s := rfl

/-- The result of an instruction that is the shared effect, for a value `v` that the alu is known to give (R151). -/
theorem WritesReg.of_aluRegEffect {o : Host.Outcome State Fault Refusal} {op : AluOp} {rd rs1 rs2 : RegIdx} {v : Word}
    {s : State} (h : o = finish (aluRegEffect op rd rs1 rs2 s) s)
    (hv : alu op (s.readReg rs1) (s.readReg rs2) = v) : WritesReg o s rd v (s.pc + 4#32) := by
  rw [aluRegEffect_eq_aluImmEffect] at h
  exact .of_aluImmEffect h hv

/-- A left shift by the low five bits (R154). -/
theorem alu_sll (a b : Word) : alu .sll a b = a <<< (b.toNat % 32) := by
  rw [alu, shiftAmount_eq]

/-- A logical right shift by the low five bits (R158). -/
theorem alu_srl (a b : Word) : alu .srl a b = a >>> (b.toNat % 32) := by
  rw [alu, shiftAmount_eq]

/-- An arithmetic right shift by the low five bits (R159). -/
theorem alu_sra (a b : Word) : alu .sra a b = a.sshiftRight (b.toNat % 32) := by
  rw [alu, shiftAmount_eq]

/-! ## Their words -/

/-- The dispatch gives every word of opcode ALU-register to `decodeAluReg` (R82, R83). -/
theorem decode_of_opcode_aluReg {w : Word} (h : opcode w = 0b0110011#7) : decode w = decodeAluReg w := by
  simp [decode, h]

/-- A word of opcode ALU-register decodes by its `funct7` and `funct3` (R91). -/
theorem decode_encodeR_aluReg (f7 : BitVec 7) (rs2 rs1 : RegIdx) (f3 : BitVec 3) (rd : RegIdx) :
    decode (encodeR f7 rs2 rs1 f3 rd 0b0110011#7) =
      if f7 = 0b0000000#7 then
        if f3 = 0b000#3 then .legal (.add rd rs1 rs2)
        else if f3 = 0b001#3 then .legal (.sll rd rs1 rs2)
        else if f3 = 0b010#3 then .legal (.slt rd rs1 rs2)
        else if f3 = 0b011#3 then .legal (.sltu rd rs1 rs2)
        else if f3 = 0b100#3 then .legal (.xor rd rs1 rs2)
        else if f3 = 0b101#3 then .legal (.srl rd rs1 rs2)
        else if f3 = 0b110#3 then .legal (.or rd rs1 rs2)
        else .legal (.and rd rs1 rs2)
      else if f7 = 0b0100000#7 then
        if f3 = 0b000#3 then .legal (.sub rd rs1 rs2)
        else if f3 = 0b101#3 then .legal (.sra rd rs1 rs2)
        else .illegal .aluFunct
      else .illegal .aluFunct := by
  rw [decode_of_opcode_aluReg (opcode_encodeR f7 rs2 rs1 f3 rd _), decodeAluReg, funct7_encodeR, funct3_encodeR,
    rdField_encodeR, rs1Field_encodeR, rs2Field_encodeR]

/-- Settles O28: each instruction is the shared effect with its own operation, and each word's literal `funct7` and
`funct3` pick its branch of the dispatch. The two illegal words are ADD's with `funct7` 0000001 and SUB's with `funct3`
001, which pick none. -/
theorem aluRegisterArithmeticAndLogicResults : Obligations.AluRegisterArithmeticAndLogicResults := by
  unfold Obligations.AluRegisterArithmeticAndLogicResults
  intro s rd rs1 rs2
  have word (f7 : BitVec 7) (f3 : BitVec 3) := decode_encodeR_aluReg f7 rs2 rs1 f3 rd
  exact ⟨.of_aluRegEffect rfl rfl, .of_aluRegEffect rfl rfl, .of_aluRegEffect rfl rfl, .of_aluRegEffect rfl rfl,
    .of_aluRegEffect rfl rfl,
    word 0b0000000#7 0b000#3, word 0b0100000#7 0b000#3, word 0b0000000#7 0b100#3, word 0b0000000#7 0b110#3,
    word 0b0000000#7 0b111#3,
    decode_encodeR_aluReg 0b0000001#7 2#5 1#5 0b000#3 3#5, decode_encodeR_aluReg 0b0100000#7 2#5 1#5 0b001#3 3#5⟩

/-- Settles O29: each instruction is the shared effect with its own operation, the shifts by the amount modulo 32; each
word's literal `funct7` and `funct3` pick its branch of the dispatch. -/
theorem aluRegisterShiftAndCompareResults : Obligations.AluRegisterShiftAndCompareResults := by
  unfold Obligations.AluRegisterShiftAndCompareResults
  intro s rd rs1 rs2
  have word (f7 : BitVec 7) (f3 : BitVec 3) := decode_encodeR_aluReg f7 rs2 rs1 f3 rd
  exact ⟨.of_aluRegEffect rfl (alu_sll _ _), .of_aluRegEffect rfl (alu_srl _ _), .of_aluRegEffect rfl (alu_sra _ _),
    .of_aluRegEffect rfl (alu_slt _ _), .of_aluRegEffect rfl (alu_sltu _ _),
    word 0b0000000#7 0b001#3, word 0b0000000#7 0b101#3, word 0b0100000#7 0b101#3, word 0b0000000#7 0b010#3,
    word 0b0000000#7 0b011#3⟩

end Sys2Proof.Machine
end

section
/-! The conditional branches' own obligation (45_branch.md, R166 to R171): where each branch goes, that it changes nothing
else, and that the words of its B format decode to it. -/

namespace Sys2Proof.Machine

/-! ## Where the branches go -/

/-- A branch whose comparison fails has the one effect of moving to the next instruction (R165). -/
theorem branchEffect_not_taken {op : CmpOp} {rs1 rs2 : RegIdx} {off : BitVec 13} {s : State}
    (h : ¬ compareBy op (s.readReg rs1) (s.readReg rs2) = true) :
    branchEffect op rs1 rs2 off s = .retire {} (s.pc + 4#32) :=
  if_neg h

/-- The result of an instruction that is the shared effect, for a condition `taken` that the comparator is known to
decide (R165). -/
theorem OnlyMoves.of_branchEffect {o : Host.Outcome State Fault Refusal} {op : CmpOp} {rs1 rs2 : RegIdx}
    {off : BitVec 13} {s : State} {taken : Prop} [Decidable taken] (h : o = finish (branchEffect op rs1 rs2 off s) s)
    (hcmp : compareBy op (s.readReg rs1) (s.readReg rs2) = true ↔ taken) :
    OnlyMoves o s (if taken then s.pc + off.signExtend 32 else s.pc + 4#32) := by
  subst h
  by_cases ht : taken
  · rw [if_pos ht, branchEffect_taken (hcmp.mpr ht)]
    exact .of_retire s (pcRelative (immB off) s)
  · rw [if_neg ht, branchEffect_not_taken (mt hcmp.mp ht)]
    exact .of_retire s (s.pc + 4#32)

/-- The same for a comparator known to decide the opposite condition: the branch is taken where `stays` fails. -/
theorem OnlyMoves.of_branchEffect_not {o : Host.Outcome State Fault Refusal} {op : CmpOp} {rs1 rs2 : RegIdx}
    {off : BitVec 13} {s : State} {stays : Prop} [Decidable stays] (h : o = finish (branchEffect op rs1 rs2 off s) s)
    (hcmp : compareBy op (s.readReg rs1) (s.readReg rs2) = true ↔ ¬ stays) :
    OnlyMoves o s (if stays then s.pc + 4#32 else s.pc + off.signExtend 32) := by
  rw [← ite_not]
  exact .of_branchEffect h hcmp

/-- BGE's comparison is the negation of BLT's (R169). -/
theorem compareBy_ge_iff (a b : Word) : compareBy .ge a b = true ↔ ¬ a.toInt < b.toInt := by
  rw [compareBy, decide_eq_true_iff, ge_iff_le, not_lt]

/-- BGEU's comparison is the negation of BLTU's (R171). -/
theorem compareBy_geu_iff (a b : Word) : compareBy .geu a b = true ↔ ¬ a.toNat < b.toNat := by
  rw [compareBy, decide_eq_true_iff, ge_iff_le, not_lt]

/-! ## Their words -/

/-- The dispatch gives every word of opcode BRANCH to `decodeBranch` (R82, R83). -/
theorem decode_of_opcode_branch {w : Word} (h : opcode w = 0b1100011#7) : decode w = decodeBranch w := by
  simp [decode, h]

/-- A word of opcode BRANCH with an even offset decodes by its `funct3` (R88). -/
theorem decode_encodeB_branch {off : BitVec 13} (heven : offsetEven13 off = true) (rs2 rs1 : RegIdx) (f3 : BitVec 3) :
    decode (encodeB off rs2 rs1 f3 0b1100011#7) =
      if f3 = 0b000#3 then .legal (.beq rs1 rs2 off)
      else if f3 = 0b001#3 then .legal (.bne rs1 rs2 off)
      else if f3 = 0b100#3 then .legal (.blt rs1 rs2 off)
      else if f3 = 0b101#3 then .legal (.bge rs1 rs2 off)
      else if f3 = 0b110#3 then .legal (.bltu rs1 rs2 off)
      else if f3 = 0b111#3 then .legal (.bgeu rs1 rs2 off)
      else .illegal .branchFunct3 := by
  rw [decode_of_opcode_branch (opcode_encodeB off rs2 rs1 f3 _), decodeBranch, funct3_encodeB, rs1Field_encodeB,
    rs2Field_encodeB, fieldB_encodeB off rs2 rs1 f3 _ heven]

/-- An offset with a zero appended below is even (R75). -/
theorem offsetEven13_append_zero (x : BitVec 12) : offsetEven13 (x ++ 0#1) = true := by
  rw [offsetEven13, getLsbD_append_zero, Bool.not_false]

/-- The B format puts the immediate's bits 12 and 10 to 5 on top, and its bits 4 to 1 and 11 where `rd` stands in other
formats (R75). -/
theorem encodeB_append (b12 b11 : BitVec 1) (b10_5 : BitVec 6) (b4_1 : BitVec 4) (rs2 rs1 : RegIdx) (f3 : BitVec 3)
    (opc : BitVec 7) :
    encodeB (b12 ++ b11 ++ b10_5 ++ b4_1 ++ 0#1) rs2 rs1 f3 opc =
      b12 ++ b10_5 ++ rs2 ++ rs1 ++ f3 ++ b4_1 ++ b11 ++ opc := by
  have bit12 : (b12 ++ b11 ++ b10_5 ++ b4_1 ++ 0#1).extractLsb' 12 1 = b12 := by
    iterate 4 rw [extract_append_high _ _ (by decide)]
    exact extract_full b12
  have bit11 : (b12 ++ b11 ++ b10_5 ++ b4_1 ++ 0#1).extractLsb' 11 1 = b11 := by
    iterate 3 rw [extract_append_high _ _ (by decide)]
    exact (extract_append_low b12 b11 (by decide)).trans (extract_full b11)
  have bits10_5 : (b12 ++ b11 ++ b10_5 ++ b4_1 ++ 0#1).extractLsb' 5 6 = b10_5 := by
    iterate 2 rw [extract_append_high _ _ (by decide)]
    exact (extract_append_low (b12 ++ b11) b10_5 (by decide)).trans (extract_full b10_5)
  have bits4_1 : (b12 ++ b11 ++ b10_5 ++ b4_1 ++ 0#1).extractLsb' 1 4 = b4_1 := by
    rw [extract_append_high _ _ (by decide)]
    exact (extract_append_low (b12 ++ b11 ++ b10_5) b4_1 (by decide)).trans (extract_full b4_1)
  rw [encodeB, bit12, bit11, bits10_5, bits4_1]

/-- Settles O22: each branch is the shared effect with its own comparison; the words are `encodeB`'s, each decoding by
its literal `funct3`. -/
theorem branchesCompareAndMove : Obligations.BranchesCompareAndMove := by
  unfold Obligations.BranchesCompareAndMove
  refine fun s rs1 rs2 => ⟨fun off => ?_, fun b12 b10_5 b4_1 b11 => ?_⟩
  · exact ⟨.of_branchEffect (op := .eq) rfl decide_eq_true_iff, .of_branchEffect (op := .ne) rfl decide_eq_true_iff,
      .of_branchEffect (op := .lt) rfl decide_eq_true_iff, .of_branchEffect_not rfl (compareBy_ge_iff _ _),
      .of_branchEffect (op := .ltu) rfl decide_eq_true_iff, .of_branchEffect_not rfl (compareBy_geu_iff _ _)⟩
  · have word (f3 : BitVec 3) :=
      decode_encodeB_branch (offsetEven13_append_zero (b12 ++ b11 ++ b10_5 ++ b4_1)) rs2 rs1 f3
    simp only [encodeB_append] at word
    exact ⟨word 0b000#3, word 0b001#3, word 0b100#3, word 0b101#3, word 0b110#3, word 0b111#3⟩

end Sys2Proof.Machine
end

section
/-! The CSR instructions' own obligations (46_system_csr.md, R178 to R183): what each instruction reads and writes or
why it halts, and that the words of their I-csr format decode to them. -/

namespace Sys2Proof.Machine

/-! ## Their words -/

/-- The dispatch gives every word of opcode SYSTEM to `decodeSystem` (R82, R83). -/
theorem decode_of_opcode_system {w : Word} (h : opcode w = 0b1110011#7) : decode w = decodeSystem w := by
  simp [decode, h]

/-- Outside the `funct3` of ECALL and EBREAK, a word of opcode SYSTEM decodes by its `funct3`; the field `src` is `rs1`
or the immediate (R79, R92). -/
theorem decode_encodeI_csr (a : CsrAddr) (src : BitVec 5) (f3 : BitVec 3) (rd : RegIdx) (not_word : f3 ≠ 0b000#3) :
    decode (encodeI a src f3 rd 0b1110011#7) =
      if f3 = 0b001#3 then .legal (.csrrw rd a src)
      else if f3 = 0b010#3 then .legal (.csrrs rd a src)
      else if f3 = 0b011#3 then .legal (.csrrc rd a src)
      else if f3 = 0b101#3 then .legal (.csrrwi rd a src)
      else if f3 = 0b110#3 then .legal (.csrrsi rd a src)
      else if f3 = 0b111#3 then .legal (.csrrci rd a src)
      else .illegal .systemFunct3 := by
  rw [decode_of_opcode_system (opcode_encodeI a src f3 rd _), decodeSystem, funct3_encodeI, if_neg not_word,
    rdField_encodeI, fieldCsr_encodeI, rs1Field_encodeI, fieldZimm_encodeI]

/-! ## What the instructions do -/

/-- The immediate's zero extension as an append (R79). -/
theorem zero_append_eq_immZ (zimm : BitVec 5) : 0#27 ++ zimm = immZ zimm :=
  zero_append_eq_setWidth 27 zimm

/-- Settles O31: each instruction is the shared CSR effect with `x[rs1]` and its own function of the old value, and each
word's literal `funct3` picks its branch of the dispatch. -/
theorem csrRegisterFormsReadAndModify : Obligations.CsrRegisterFormsReadAndModify := by
  unfold Obligations.CsrRegisterFormsReadAndModify
  intro s rd rs1 a
  have word (f3 : BitVec 3) := decode_encodeI_csr a rs1 f3 rd
  exact ⟨.of_csrEffect (f := csrSwap) (src := s.readReg rs1) rfl, .of_csrEffect (f := csrSetBits) rfl,
    .of_csrEffect (f := csrClearBits) rfl,
    word 0b001#3 (by decide), word 0b010#3 (by decide), word 0b011#3 (by decide)⟩

/-- Settles O32: each instruction is the shared CSR effect with the zero-extended immediate and its own function of the
old value, and each word's literal `funct3` picks its branch of the dispatch. -/
theorem csrImmediateFormsReadAndModify : Obligations.CsrImmediateFormsReadAndModify := by
  unfold Obligations.CsrImmediateFormsReadAndModify
  intro s rd z a
  have word (f3 : BitVec 3) := decode_encodeI_csr a z f3 rd
  rw [zero_append_eq_immZ]
  exact ⟨.of_csrEffect (f := csrSwap) (src := immZ z) rfl, .of_csrEffect (f := csrSetBits) rfl,
    .of_csrEffect (f := csrClearBits) rfl,
    word 0b101#3 (by decide), word 0b110#3 (by decide), word 0b111#3 (by decide)⟩

end Sys2Proof.Machine
end

section
/-! The decoder's and the encoder's own obligations (30_encoding.md, R70 to R97): decoding an instruction's word, what
the decoder may answer for a word, the rows of the opcode table and the list of illegal words. -/

namespace Sys2Proof.Machine

/-! ## Decoding an instruction's word -/

/-- The dispatch on opcode JAL (R82, R83). -/
theorem decode_of_opcode_jal {w : Word} (h : opcode w = 0b1101111#7) :
    decode w = .legal (.jal (rdField w) (fieldJ w)) := by
  simp [decode, h]

/-- The dispatch on opcode JALR, whose words are legal for `funct3` zero alone (R82, D8). -/
theorem decode_of_opcode_jalr {w : Word} (h : opcode w = 0b1100111#7) :
    decode w = if funct3 w = 0b000#3 then .legal (.jalr (rdField w) (rs1Field w) (fieldI w))
      else .illegal .jalrFunct3 := by
  simp [decode, h]

/-- A word of opcode JAL with an even offset (R77). -/
theorem decode_encodeJ_jal {off : BitVec 21} (heven : offsetEven21 off = true) (rd : RegIdx) :
    decode (encodeJ off rd 0b1101111#7) = .legal (.jal rd off) := by
  rw [decode_of_opcode_jal (opcode_encodeJ off rd _), rdField_encodeJ, fieldJ_encodeJ off rd _ heven]

/-- A word of opcode JALR decodes by its `funct3` (D8). -/
theorem decode_encodeI_jalr (imm : BitVec 12) (rs1 : RegIdx) (f3 : BitVec 3) (rd : RegIdx) :
    decode (encodeI imm rs1 f3 rd 0b1100111#7) =
      if f3 = 0b000#3 then .legal (.jalr rd rs1 imm) else .illegal .jalrFunct3 := by
  rw [decode_of_opcode_jalr (opcode_encodeI imm rs1 f3 rd _), funct3_encodeI, rdField_encodeI, rs1Field_encodeI,
    fieldI_encodeI]

/-- Settles O1: each format's word decodes by its opcode, `funct3` and `funct7`, which are literals here; the offset of
a well-formed branch or JAL is even, so its format drops no bit of it. -/
theorem decodeOfEncodeIsTheInstruction : Obligations.DecodeOfEncodeIsTheInstruction := by
  unfold Obligations.DecodeOfEncodeIsTheInstruction
  intro i heven
  cases i with
  | lui rd imm => exact decode_encodeU_lui rd imm
  | auipc rd imm => exact decode_encodeU_auipc rd imm
  | jal rd off => exact decode_encodeJ_jal heven rd
  | jalr rd rs1 imm => exact decode_encodeI_jalr imm rs1 0b000#3 rd
  | beq rs1 rs2 off => exact decode_encodeB_branch heven rs2 rs1 0b000#3
  | bne rs1 rs2 off => exact decode_encodeB_branch heven rs2 rs1 0b001#3
  | blt rs1 rs2 off => exact decode_encodeB_branch heven rs2 rs1 0b100#3
  | bge rs1 rs2 off => exact decode_encodeB_branch heven rs2 rs1 0b101#3
  | bltu rs1 rs2 off => exact decode_encodeB_branch heven rs2 rs1 0b110#3
  | bgeu rs1 rs2 off => exact decode_encodeB_branch heven rs2 rs1 0b111#3
  | lb rd rs1 imm => exact decode_encodeI_load imm rs1 0b000#3 rd
  | lh rd rs1 imm => exact decode_encodeI_load imm rs1 0b001#3 rd
  | lw rd rs1 imm => exact decode_encodeI_load imm rs1 0b010#3 rd
  | lbu rd rs1 imm => exact decode_encodeI_load imm rs1 0b100#3 rd
  | lhu rd rs1 imm => exact decode_encodeI_load imm rs1 0b101#3 rd
  | sb rs1 rs2 imm => exact decode_encodeS_store imm rs2 rs1 0b000#3
  | sh rs1 rs2 imm => exact decode_encodeS_store imm rs2 rs1 0b001#3
  | sw rs1 rs2 imm => exact decode_encodeS_store imm rs2 rs1 0b010#3
  | addi rd rs1 imm => exact decode_encodeI_aluImm imm rs1 0b000#3 rd (by decide) (by decide)
  | slti rd rs1 imm => exact decode_encodeI_aluImm imm rs1 0b010#3 rd (by decide) (by decide)
  | sltiu rd rs1 imm => exact decode_encodeI_aluImm imm rs1 0b011#3 rd (by decide) (by decide)
  | xori rd rs1 imm => exact decode_encodeI_aluImm imm rs1 0b100#3 rd (by decide) (by decide)
  | ori rd rs1 imm => exact decode_encodeI_aluImm imm rs1 0b110#3 rd (by decide) (by decide)
  | andi rd rs1 imm => exact decode_encodeI_aluImm imm rs1 0b111#3 rd (by decide) (by decide)
  | slli rd rs1 shamt => exact decode_encodeR_sll 0b0000000#7 shamt rs1 rd
  | srli rd rs1 shamt => exact decode_encodeR_sr 0b0000000#7 shamt rs1 rd
  | srai rd rs1 shamt => exact decode_encodeR_sr 0b0100000#7 shamt rs1 rd
  | add rd rs1 rs2 => exact decode_encodeR_aluReg 0b0000000#7 rs2 rs1 0b000#3 rd
  | sub rd rs1 rs2 => exact decode_encodeR_aluReg 0b0100000#7 rs2 rs1 0b000#3 rd
  | sll rd rs1 rs2 => exact decode_encodeR_aluReg 0b0000000#7 rs2 rs1 0b001#3 rd
  | slt rd rs1 rs2 => exact decode_encodeR_aluReg 0b0000000#7 rs2 rs1 0b010#3 rd
  | sltu rd rs1 rs2 => exact decode_encodeR_aluReg 0b0000000#7 rs2 rs1 0b011#3 rd
  | xor rd rs1 rs2 => exact decode_encodeR_aluReg 0b0000000#7 rs2 rs1 0b100#3 rd
  | srl rd rs1 rs2 => exact decode_encodeR_aluReg 0b0000000#7 rs2 rs1 0b101#3 rd
  | sra rd rs1 rs2 => exact decode_encodeR_aluReg 0b0100000#7 rs2 rs1 0b101#3 rd
  | or rd rs1 rs2 => exact decode_encodeR_aluReg 0b0000000#7 rs2 rs1 0b110#3 rd
  | and rd rs1 rs2 => exact decode_encodeR_aluReg 0b0000000#7 rs2 rs1 0b111#3 rd
  | ecall => decide
  | ebreak => decide
  | csrrw rd csr rs1 => exact decode_encodeI_csr csr rs1 0b001#3 rd (by decide)
  | csrrs rd csr rs1 => exact decode_encodeI_csr csr rs1 0b010#3 rd (by decide)
  | csrrc rd csr rs1 => exact decode_encodeI_csr csr rs1 0b011#3 rd (by decide)
  | csrrwi rd csr zimm => exact decode_encodeI_csr csr zimm 0b101#3 rd (by decide)
  | csrrsi rd csr zimm => exact decode_encodeI_csr csr zimm 0b110#3 rd (by decide)
  | csrrci rd csr zimm => exact decode_encodeI_csr csr zimm 0b111#3 rd (by decide)

/-- A word decodes to an instruction whose word it is. -/
theorem decode_of_encode_eq {w : Word} {i : Instr} (he : encode i = w) (hwf : i.wf = true) : decode w = .legal i :=
  he ▸ decodeOfEncodeIsTheInstruction i hwf

/-- Settles O5: each word is that of its instruction. -/
theorem writtenOutWordsDecode : Obligations.WrittenOutWordsDecode := by
  unfold Obligations.WrittenOutWordsDecode
  refine ⟨decode_of_encode_eq ?_ rfl, decode_of_encode_eq ?_ rfl, decode_of_encode_eq ?_ rfl,
    decode_of_encode_eq ?_ rfl, decode_of_encode_eq ?_ rfl, decode_of_encode_eq ?_ rfl,
    decode_of_encode_eq ?_ rfl, decode_of_encode_eq ?_ rfl⟩
  all_goals decide

/-! ## What the decoder answers -/

section
variable {w : Word} {f7 : BitVec 7} {f3 : BitVec 3} {opc : BitVec 7}

/-! A word whose fixed fields are known is its format's word of its own operands (R72). -/

theorem encodeR_eq_self (h7 : funct7 w = f7) (h3 : funct3 w = f3) (ho : opcode w = opc) :
    encodeR f7 (rs2Field w) (rs1Field w) f3 (rdField w) opc = w := by
  subst h7 h3 ho
  exact encodeR_fields w

theorem encodeI_eq_self (h3 : funct3 w = f3) (ho : opcode w = opc) :
    encodeI (fieldI w) (rs1Field w) f3 (rdField w) opc = w := by
  subst h3 ho
  exact encodeI_fields w

theorem encodeS_eq_self (h3 : funct3 w = f3) (ho : opcode w = opc) :
    encodeS (fieldS w) (rs2Field w) (rs1Field w) f3 opc = w := by
  subst h3 ho
  exact encodeS_fields w

theorem encodeB_eq_self (h3 : funct3 w = f3) (ho : opcode w = opc) :
    encodeB (fieldB w) (rs2Field w) (rs1Field w) f3 opc = w := by
  subst h3 ho
  exact encodeB_fields w

theorem encodeU_eq_self (ho : opcode w = opc) : encodeU (fieldU w) (rdField w) opc = w := by
  subst ho
  exact encodeU_fields w

theorem encodeJ_eq_self (ho : opcode w = opc) : encodeJ (fieldJ w) (rdField w) opc = w := by
  subst ho
  exact encodeJ_fields w

end

/-- The item of R90's list that a reason names; none for `truncated`, which no whole word is (log entry 13). -/
def IllegalBecause (w : Word) : IllegalReason → Prop
  | .unknownOpcode => opcode w ∉ [0x37#7, 0x17#7, 0x6F#7, 0x67#7, 0x63#7, 0x03#7, 0x23#7, 0x13#7, 0x33#7, 0x73#7]
  | .jalrFunct3 => opcode w = 0x67#7 ∧ funct3 w ≠ 0b000#3
  | .loadFunct3 => opcode w = 0x03#7 ∧ funct3 w ∈ [0b011#3, 0b110#3, 0b111#3]
  | .storeFunct3 => opcode w = 0x23#7 ∧ funct3 w ∈ [0b011#3, 0b100#3, 0b101#3, 0b110#3, 0b111#3]
  | .branchFunct3 => opcode w = 0x63#7 ∧ funct3 w ∈ [0b010#3, 0b011#3]
  | .shiftFunct7 => opcode w = 0x13#7 ∧
      ((funct3 w = 0b001#3 ∧ funct7 w ≠ 0b0000000#7) ∨ (funct3 w = 0b101#3 ∧ funct7 w ∉ [0b0000000#7, 0b0100000#7]))
  | .aluFunct => opcode w = 0x33#7 ∧
      funct7 w ≠ 0b0000000#7 ∧ ¬(funct7 w = 0b0100000#7 ∧ funct3 w ∈ [0b000#3, 0b101#3])
  | .systemWord => opcode w = 0x73#7 ∧ funct3 w = 0b000#3 ∧ w ∉ [0x00000073#32, 0x00100073#32]
  | .systemFunct3 => opcode w = 0x73#7 ∧ funct3 w = 0b100#3
  | .truncated => False

/-- An answer of the decoder is right for `w`: a well-formed instruction whose word is `w`, or a reason that holds. -/
def RightAnswer (w : Word) : Decoded → Prop
  | .legal i => encode i = w ∧ i.wf = true
  | .illegal r => IllegalBecause w r

/-- A dispatch on `c` answers right when both its branches do. -/
theorem RightAnswer.ite {w : Word} {c : Prop} [Decidable c] {d d' : Decoded} (pos : c → RightAnswer w d)
    (neg : ¬ c → RightAnswer w d') : RightAnswer w (if c then d else d') := by
  split
  next h => exact pos h
  next h => exact neg h

/-! Each dispatch answers right for the words that `decode` gives it: where a test passes, the tested fields are the
instruction's own; where all fail, the values left are those of the list of illegal words. -/

theorem rightAnswer_decodeBranch {w : Word} (h : opcode w = 0x63#7) : RightAnswer w (decodeBranch w) := by
  have others : ∀ f : BitVec 3, f ≠ 0b000#3 → f ≠ 0b001#3 → f ≠ 0b100#3 → f ≠ 0b101#3 → f ≠ 0b110#3 → f ≠ 0b111#3 →
      f ∈ [0b010#3, 0b011#3] := by decide
  have even := offsetEven13_fieldB w
  unfold decodeBranch
  refine .ite (fun beq => ⟨encodeB_eq_self beq h, even⟩) fun not_beq => ?_
  refine .ite (fun bne => ⟨encodeB_eq_self bne h, even⟩) fun not_bne => ?_
  refine .ite (fun blt => ⟨encodeB_eq_self blt h, even⟩) fun not_blt => ?_
  refine .ite (fun bge => ⟨encodeB_eq_self bge h, even⟩) fun not_bge => ?_
  refine .ite (fun bltu => ⟨encodeB_eq_self bltu h, even⟩) fun not_bltu => ?_
  refine .ite (fun bgeu => ⟨encodeB_eq_self bgeu h, even⟩) fun not_bgeu => ?_
  exact ⟨h, others _ not_beq not_bne not_blt not_bge not_bltu not_bgeu⟩

theorem rightAnswer_decodeLoad {w : Word} (h : opcode w = 0x03#7) : RightAnswer w (decodeLoad w) := by
  have others : ∀ f : BitVec 3, f ≠ 0b000#3 → f ≠ 0b001#3 → f ≠ 0b010#3 → f ≠ 0b100#3 → f ≠ 0b101#3 →
      f ∈ [0b011#3, 0b110#3, 0b111#3] := by decide
  unfold decodeLoad
  refine .ite (fun lb => ⟨encodeI_eq_self lb h, rfl⟩) fun not_lb => ?_
  refine .ite (fun lh => ⟨encodeI_eq_self lh h, rfl⟩) fun not_lh => ?_
  refine .ite (fun lw => ⟨encodeI_eq_self lw h, rfl⟩) fun not_lw => ?_
  refine .ite (fun lbu => ⟨encodeI_eq_self lbu h, rfl⟩) fun not_lbu => ?_
  refine .ite (fun lhu => ⟨encodeI_eq_self lhu h, rfl⟩) fun not_lhu => ?_
  exact ⟨h, others _ not_lb not_lh not_lw not_lbu not_lhu⟩

theorem rightAnswer_decodeStore {w : Word} (h : opcode w = 0x23#7) : RightAnswer w (decodeStore w) := by
  have others : ∀ f : BitVec 3, f ≠ 0b000#3 → f ≠ 0b001#3 → f ≠ 0b010#3 →
      f ∈ [0b011#3, 0b100#3, 0b101#3, 0b110#3, 0b111#3] := by decide
  unfold decodeStore
  refine .ite (fun sb => ⟨encodeS_eq_self sb h, rfl⟩) fun not_sb => ?_
  refine .ite (fun sh => ⟨encodeS_eq_self sh h, rfl⟩) fun not_sh => ?_
  refine .ite (fun sw => ⟨encodeS_eq_self sw h, rfl⟩) fun not_sw => ?_
  exact ⟨h, others _ not_sb not_sh not_sw⟩

theorem rightAnswer_decodeAluImm {w : Word} (h : opcode w = 0x13#7) : RightAnswer w (decodeAluImm w) := by
  have shifts : ∀ f : BitVec 3, f ≠ 0b000#3 → f ≠ 0b010#3 → f ≠ 0b011#3 → f ≠ 0b100#3 → f ≠ 0b110#3 → f ≠ 0b111#3 →
      f = 0b001#3 ∨ f = 0b101#3 := by decide
  unfold decodeAluImm
  refine .ite (fun addi => ⟨encodeI_eq_self addi h, rfl⟩) fun not_addi => ?_
  refine .ite (fun slti => ⟨encodeI_eq_self slti h, rfl⟩) fun not_slti => ?_
  refine .ite (fun sltiu => ⟨encodeI_eq_self sltiu h, rfl⟩) fun not_sltiu => ?_
  refine .ite (fun xori => ⟨encodeI_eq_self xori h, rfl⟩) fun not_xori => ?_
  refine .ite (fun ori => ⟨encodeI_eq_self ori h, rfl⟩) fun not_ori => ?_
  refine .ite (fun andi => ⟨encodeI_eq_self andi h, rfl⟩) fun not_andi => ?_
  refine .ite (fun slli => ⟨encodeR_eq_self slli.2 slli.1 h, rfl⟩) fun not_slli => ?_
  refine .ite (fun srli => ⟨encodeR_eq_self srli.2 srli.1 h, rfl⟩) fun not_srli => ?_
  refine .ite (fun srai => ⟨encodeR_eq_self srai.2 srai.1 h, rfl⟩) fun not_srai => ?_
  obtain sl | sr := shifts _ not_addi not_slti not_sltiu not_xori not_ori not_andi
  · exact ⟨h, .inl ⟨sl, fun h7 => not_slli ⟨sl, h7⟩⟩⟩
  · exact ⟨h, .inr ⟨sr, by simpa [sr] using And.intro not_srli not_srai⟩⟩

theorem rightAnswer_decodeAluReg {w : Word} (h : opcode w = 0x33#7) : RightAnswer w (decodeAluReg w) := by
  unfold decodeAluReg
  refine .ite (fun f7 => ?_) fun not_f7 => ?_
  · refine .ite (fun add => ⟨encodeR_eq_self f7 add h, rfl⟩) fun not_add => ?_
    refine .ite (fun sll => ⟨encodeR_eq_self f7 sll h, rfl⟩) fun not_sll => ?_
    refine .ite (fun slt => ⟨encodeR_eq_self f7 slt h, rfl⟩) fun not_slt => ?_
    refine .ite (fun sltu => ⟨encodeR_eq_self f7 sltu h, rfl⟩) fun not_sltu => ?_
    refine .ite (fun xor => ⟨encodeR_eq_self f7 xor h, rfl⟩) fun not_xor => ?_
    refine .ite (fun srl => ⟨encodeR_eq_self f7 srl h, rfl⟩) fun not_srl => ?_
    refine .ite (fun or => ⟨encodeR_eq_self f7 or h, rfl⟩) fun not_or => ?_
    have and : funct3 w = 0b111#3 := by bv_omega
    exact ⟨encodeR_eq_self f7 and h, rfl⟩
  · refine .ite (fun f7' => ?_) fun not_f7' => ⟨h, not_f7, fun e => not_f7' e.1⟩
    refine .ite (fun sub => ⟨encodeR_eq_self f7' sub h, rfl⟩) fun not_sub => ?_
    refine .ite (fun sra => ⟨encodeR_eq_self f7' sra h, rfl⟩) fun not_sra => ?_
    exact ⟨h, not_f7, by simp [not_sub, not_sra]⟩

theorem rightAnswer_decodeSystem {w : Word} (h : opcode w = 0x73#7) : RightAnswer w (decodeSystem w) := by
  unfold decodeSystem
  refine .ite (fun whole => ?_) fun not_whole => ?_
  · refine .ite (fun ecall => ⟨ecall.symm, rfl⟩) fun not_ecall => ?_
    refine .ite (fun ebreak => ⟨ebreak.symm, rfl⟩) fun not_ebreak => ?_
    exact ⟨h, whole, by simp [not_ecall, not_ebreak]⟩
  · refine .ite (fun csrrw => ⟨encodeI_eq_self csrrw h, rfl⟩) fun not_csrrw => ?_
    refine .ite (fun csrrs => ⟨encodeI_eq_self csrrs h, rfl⟩) fun not_csrrs => ?_
    refine .ite (fun csrrc => ⟨encodeI_eq_self csrrc h, rfl⟩) fun not_csrrc => ?_
    refine .ite (fun csrrwi => ⟨encodeI_eq_self csrrwi h, rfl⟩) fun not_csrrwi => ?_
    refine .ite (fun csrrsi => ⟨encodeI_eq_self csrrsi h, rfl⟩) fun not_csrrsi => ?_
    refine .ite (fun csrrci => ⟨encodeI_eq_self csrrci h, rfl⟩) fun not_csrrci => ?_
    exact ⟨h, by bv_omega⟩

/-- The decoder's answer is right for every word. -/
theorem rightAnswer_decode (w : Word) : RightAnswer w (decode w) := by
  unfold decode
  refine .ite (fun lui => ⟨encodeU_eq_self lui, rfl⟩) fun not_lui => ?_
  refine .ite (fun auipc => ⟨encodeU_eq_self auipc, rfl⟩) fun not_auipc => ?_
  refine .ite (fun jal => ⟨encodeJ_eq_self jal, offsetEven21_fieldJ w⟩) fun not_jal => ?_
  refine .ite (fun jalr => .ite (fun h3 => ⟨encodeI_eq_self h3 jalr, rfl⟩) fun h3 => ⟨jalr, h3⟩) fun not_jalr => ?_
  refine .ite rightAnswer_decodeBranch fun not_branch => ?_
  refine .ite rightAnswer_decodeLoad fun not_load => ?_
  refine .ite rightAnswer_decodeStore fun not_store => ?_
  refine .ite rightAnswer_decodeAluImm fun not_aluImm => ?_
  refine .ite rightAnswer_decodeAluReg fun not_aluReg => ?_
  refine .ite rightAnswer_decodeSystem fun not_system => ?_
  simp [RightAnswer, IllegalBecause, not_lui, not_auipc, not_jal, not_jalr, not_branch, not_load, not_store,
    not_aluImm, not_aluReg, not_system]

/-- Settles O2: a legal answer is right. -/
theorem encodeOfDecodeIsTheWord : Obligations.EncodeOfDecodeIsTheWord := by
  unfold Obligations.EncodeOfDecodeIsTheWord
  intro w i h
  have right := rightAnswer_decode w
  rwa [h] at right

/-! ## The opcode table -/

/-- Every instruction's word has its own row's pattern. -/
theorem encode_matches_row (i : Instr) : Laws.Encoding.Statement i := by
  cases i with
  | lui rd imm => exact Laws.Encoding.lui rd imm
  | auipc rd imm => exact Laws.Encoding.auipc rd imm
  | jal rd off => exact Laws.Encoding.jal rd off
  | jalr rd rs1 imm => exact Laws.Encoding.jalr rd rs1 imm
  | beq rs1 rs2 off => exact Laws.Encoding.beq rs1 rs2 off
  | bne rs1 rs2 off => exact Laws.Encoding.bne rs1 rs2 off
  | blt rs1 rs2 off => exact Laws.Encoding.blt rs1 rs2 off
  | bge rs1 rs2 off => exact Laws.Encoding.bge rs1 rs2 off
  | bltu rs1 rs2 off => exact Laws.Encoding.bltu rs1 rs2 off
  | bgeu rs1 rs2 off => exact Laws.Encoding.bgeu rs1 rs2 off
  | lb rd rs1 imm => exact Laws.Encoding.lb rd rs1 imm
  | lh rd rs1 imm => exact Laws.Encoding.lh rd rs1 imm
  | lw rd rs1 imm => exact Laws.Encoding.lw rd rs1 imm
  | lbu rd rs1 imm => exact Laws.Encoding.lbu rd rs1 imm
  | lhu rd rs1 imm => exact Laws.Encoding.lhu rd rs1 imm
  | sb rs1 rs2 imm => exact Laws.Encoding.sb rs1 rs2 imm
  | sh rs1 rs2 imm => exact Laws.Encoding.sh rs1 rs2 imm
  | sw rs1 rs2 imm => exact Laws.Encoding.sw rs1 rs2 imm
  | addi rd rs1 imm => exact Laws.Encoding.addi rd rs1 imm
  | slti rd rs1 imm => exact Laws.Encoding.slti rd rs1 imm
  | sltiu rd rs1 imm => exact Laws.Encoding.sltiu rd rs1 imm
  | xori rd rs1 imm => exact Laws.Encoding.xori rd rs1 imm
  | ori rd rs1 imm => exact Laws.Encoding.ori rd rs1 imm
  | andi rd rs1 imm => exact Laws.Encoding.andi rd rs1 imm
  | slli rd rs1 shamt => exact Laws.Encoding.slli rd rs1 shamt
  | srli rd rs1 shamt => exact Laws.Encoding.srli rd rs1 shamt
  | srai rd rs1 shamt => exact Laws.Encoding.srai rd rs1 shamt
  | add rd rs1 rs2 => exact Laws.Encoding.add rd rs1 rs2
  | sub rd rs1 rs2 => exact Laws.Encoding.sub rd rs1 rs2
  | sll rd rs1 rs2 => exact Laws.Encoding.sll rd rs1 rs2
  | slt rd rs1 rs2 => exact Laws.Encoding.slt rd rs1 rs2
  | sltu rd rs1 rs2 => exact Laws.Encoding.sltu rd rs1 rs2
  | xor rd rs1 rs2 => exact Laws.Encoding.xor rd rs1 rs2
  | srl rd rs1 rs2 => exact Laws.Encoding.srl rd rs1 rs2
  | sra rd rs1 rs2 => exact Laws.Encoding.sra rd rs1 rs2
  | or rd rs1 rs2 => exact Laws.Encoding.or rd rs1 rs2
  | and rd rs1 rs2 => exact Laws.Encoding.and rd rs1 rs2
  | ecall => exact Laws.Encoding.ecall
  | ebreak => exact Laws.Encoding.ebreak
  | csrrw rd csr rs1 => exact Laws.Encoding.csrrw rd csr rs1
  | csrrs rd csr rs1 => exact Laws.Encoding.csrrs rd csr rs1
  | csrrc rd csr rs1 => exact Laws.Encoding.csrrc rd csr rs1
  | csrrwi rd csr zimm => exact Laws.Encoding.csrrwi rd csr zimm
  | csrrsi rd csr zimm => exact Laws.Encoding.csrrsi rd csr zimm
  | csrrci rd csr zimm => exact Laws.Encoding.csrrci rd csr zimm

/-- Every word that matches the row is the word of a well-formed instruction with the row's mnemonic. -/
def RowEncodes (row : OpcodeRow) : Prop :=
  ∀ w : Word, w &&& row.mask = row.pattern → ∃ i : Instr, encode i = w ∧ i.wf = true ∧ i.mnemonic = row.mnemonic

/-- A row that fixes `opcode` alone. -/
theorem RowEncodes.of_opcode {name : String} {p : Word} (o : BitVec 7) (hp : p = encodeR 0#7 0#5 0#5 0#3 0#5 o)
    (h : ∀ w, opcode w = o → ∃ i : Instr, encode i = w ∧ i.wf = true ∧ i.mnemonic = name) :
    RowEncodes ⟨name, p, 0x0000007F#32⟩ :=
  fun w hw => h w ((match_opcode_iff hp).mp hw)

/-- A row that fixes `funct3` and `opcode`. -/
theorem RowEncodes.of_funct3 {name : String} {p : Word} (g : BitVec 3) (o : BitVec 7)
    (hp : p = encodeR 0#7 0#5 0#5 g 0#5 o)
    (h : ∀ w, funct3 w = g → opcode w = o → ∃ i : Instr, encode i = w ∧ i.wf = true ∧ i.mnemonic = name) :
    RowEncodes ⟨name, p, 0x0000707F#32⟩ := by
  intro w hw
  obtain ⟨hg, ho⟩ := (match_funct3_iff hp).mp hw
  exact h w hg ho

/-- A row that fixes `funct7`, `funct3` and `opcode`. -/
theorem RowEncodes.of_funct7 {name : String} {p : Word} (f : BitVec 7) (g : BitVec 3) (o : BitVec 7)
    (hp : p = encodeR f 0#5 0#5 g 0#5 o)
    (h : ∀ w, funct7 w = f → funct3 w = g → opcode w = o →
      ∃ i : Instr, encode i = w ∧ i.wf = true ∧ i.mnemonic = name) :
    RowEncodes ⟨name, p, 0xFE00707F#32⟩ := by
  intro w hw
  obtain ⟨hf, hg, ho⟩ := (match_funct7_iff hp).mp hw
  exact h w hf hg ho

/-- A row that fixes the whole word. -/
theorem RowEncodes.of_word {name : String} {p : Word} (i : Instr) (he : encode i = p) (hwf : i.wf = true)
    (hn : i.mnemonic = name) : RowEncodes ⟨name, p, 0xFFFFFFFF#32⟩ :=
  fun _ hw => ⟨i, he.trans (hw.symm.trans BitVec.and_allOnes), hwf, hn⟩

theorem rowsUpperJump_encode : ∀ row ∈ rowsUpperJump, RowEncodes row := by
  simp only [rowsUpperJump, List.forall_mem_cons]
  exact ⟨.of_opcode 0x37#7 (by decide) fun w ho => ⟨.lui (rdField w) (fieldU w), encodeU_eq_self ho, rfl, rfl⟩,
    .of_opcode 0x17#7 (by decide) fun w ho => ⟨.auipc (rdField w) (fieldU w), encodeU_eq_self ho, rfl, rfl⟩,
    .of_opcode 0x6F#7 (by decide) fun w ho =>
      ⟨.jal (rdField w) (fieldJ w), encodeJ_eq_self ho, offsetEven21_fieldJ w, rfl⟩,
    .of_funct3 0b000#3 0x67#7 (by decide) fun w h3 ho =>
      ⟨.jalr (rdField w) (rs1Field w) (fieldI w), encodeI_eq_self h3 ho, rfl, rfl⟩,
    List.forall_mem_nil _⟩

theorem rowsBranch_encode : ∀ row ∈ rowsBranch, RowEncodes row := by
  simp only [rowsBranch, List.forall_mem_cons]
  exact ⟨.of_funct3 0b000#3 0x63#7 (by decide) fun w h3 ho =>
      ⟨.beq (rs1Field w) (rs2Field w) (fieldB w), encodeB_eq_self h3 ho, offsetEven13_fieldB w, rfl⟩,
    .of_funct3 0b001#3 0x63#7 (by decide) fun w h3 ho =>
      ⟨.bne (rs1Field w) (rs2Field w) (fieldB w), encodeB_eq_self h3 ho, offsetEven13_fieldB w, rfl⟩,
    .of_funct3 0b100#3 0x63#7 (by decide) fun w h3 ho =>
      ⟨.blt (rs1Field w) (rs2Field w) (fieldB w), encodeB_eq_self h3 ho, offsetEven13_fieldB w, rfl⟩,
    .of_funct3 0b101#3 0x63#7 (by decide) fun w h3 ho =>
      ⟨.bge (rs1Field w) (rs2Field w) (fieldB w), encodeB_eq_self h3 ho, offsetEven13_fieldB w, rfl⟩,
    .of_funct3 0b110#3 0x63#7 (by decide) fun w h3 ho =>
      ⟨.bltu (rs1Field w) (rs2Field w) (fieldB w), encodeB_eq_self h3 ho, offsetEven13_fieldB w, rfl⟩,
    .of_funct3 0b111#3 0x63#7 (by decide) fun w h3 ho =>
      ⟨.bgeu (rs1Field w) (rs2Field w) (fieldB w), encodeB_eq_self h3 ho, offsetEven13_fieldB w, rfl⟩,
    List.forall_mem_nil _⟩

theorem rowsLoadStore_encode : ∀ row ∈ rowsLoadStore, RowEncodes row := by
  simp only [rowsLoadStore, List.forall_mem_cons]
  exact ⟨.of_funct3 0b000#3 0x03#7 (by decide) fun w h3 ho =>
      ⟨.lb (rdField w) (rs1Field w) (fieldI w), encodeI_eq_self h3 ho, rfl, rfl⟩,
    .of_funct3 0b001#3 0x03#7 (by decide) fun w h3 ho =>
      ⟨.lh (rdField w) (rs1Field w) (fieldI w), encodeI_eq_self h3 ho, rfl, rfl⟩,
    .of_funct3 0b010#3 0x03#7 (by decide) fun w h3 ho =>
      ⟨.lw (rdField w) (rs1Field w) (fieldI w), encodeI_eq_self h3 ho, rfl, rfl⟩,
    .of_funct3 0b100#3 0x03#7 (by decide) fun w h3 ho =>
      ⟨.lbu (rdField w) (rs1Field w) (fieldI w), encodeI_eq_self h3 ho, rfl, rfl⟩,
    .of_funct3 0b101#3 0x03#7 (by decide) fun w h3 ho =>
      ⟨.lhu (rdField w) (rs1Field w) (fieldI w), encodeI_eq_self h3 ho, rfl, rfl⟩,
    .of_funct3 0b000#3 0x23#7 (by decide) fun w h3 ho =>
      ⟨.sb (rs1Field w) (rs2Field w) (fieldS w), encodeS_eq_self h3 ho, rfl, rfl⟩,
    .of_funct3 0b001#3 0x23#7 (by decide) fun w h3 ho =>
      ⟨.sh (rs1Field w) (rs2Field w) (fieldS w), encodeS_eq_self h3 ho, rfl, rfl⟩,
    .of_funct3 0b010#3 0x23#7 (by decide) fun w h3 ho =>
      ⟨.sw (rs1Field w) (rs2Field w) (fieldS w), encodeS_eq_self h3 ho, rfl, rfl⟩,
    List.forall_mem_nil _⟩

theorem rowsAluImm_encode : ∀ row ∈ rowsAluImm, RowEncodes row := by
  simp only [rowsAluImm, List.forall_mem_cons]
  exact ⟨.of_funct3 0b000#3 0x13#7 (by decide) fun w h3 ho =>
      ⟨.addi (rdField w) (rs1Field w) (fieldI w), encodeI_eq_self h3 ho, rfl, rfl⟩,
    .of_funct3 0b010#3 0x13#7 (by decide) fun w h3 ho =>
      ⟨.slti (rdField w) (rs1Field w) (fieldI w), encodeI_eq_self h3 ho, rfl, rfl⟩,
    .of_funct3 0b011#3 0x13#7 (by decide) fun w h3 ho =>
      ⟨.sltiu (rdField w) (rs1Field w) (fieldI w), encodeI_eq_self h3 ho, rfl, rfl⟩,
    .of_funct3 0b100#3 0x13#7 (by decide) fun w h3 ho =>
      ⟨.xori (rdField w) (rs1Field w) (fieldI w), encodeI_eq_self h3 ho, rfl, rfl⟩,
    .of_funct3 0b110#3 0x13#7 (by decide) fun w h3 ho =>
      ⟨.ori (rdField w) (rs1Field w) (fieldI w), encodeI_eq_self h3 ho, rfl, rfl⟩,
    .of_funct3 0b111#3 0x13#7 (by decide) fun w h3 ho =>
      ⟨.andi (rdField w) (rs1Field w) (fieldI w), encodeI_eq_self h3 ho, rfl, rfl⟩,
    .of_funct7 0b0000000#7 0b001#3 0x13#7 (by decide) fun w h7 h3 ho =>
      ⟨.slli (rdField w) (rs1Field w) (fieldShamt w), encodeR_eq_self h7 h3 ho, rfl, rfl⟩,
    .of_funct7 0b0000000#7 0b101#3 0x13#7 (by decide) fun w h7 h3 ho =>
      ⟨.srli (rdField w) (rs1Field w) (fieldShamt w), encodeR_eq_self h7 h3 ho, rfl, rfl⟩,
    .of_funct7 0b0100000#7 0b101#3 0x13#7 (by decide) fun w h7 h3 ho =>
      ⟨.srai (rdField w) (rs1Field w) (fieldShamt w), encodeR_eq_self h7 h3 ho, rfl, rfl⟩,
    List.forall_mem_nil _⟩

theorem rowsAluReg_encode : ∀ row ∈ rowsAluReg, RowEncodes row := by
  simp only [rowsAluReg, List.forall_mem_cons]
  exact ⟨.of_funct7 0b0000000#7 0b000#3 0x33#7 (by decide) fun w h7 h3 ho =>
      ⟨.add (rdField w) (rs1Field w) (rs2Field w), encodeR_eq_self h7 h3 ho, rfl, rfl⟩,
    .of_funct7 0b0100000#7 0b000#3 0x33#7 (by decide) fun w h7 h3 ho =>
      ⟨.sub (rdField w) (rs1Field w) (rs2Field w), encodeR_eq_self h7 h3 ho, rfl, rfl⟩,
    .of_funct7 0b0000000#7 0b001#3 0x33#7 (by decide) fun w h7 h3 ho =>
      ⟨.sll (rdField w) (rs1Field w) (rs2Field w), encodeR_eq_self h7 h3 ho, rfl, rfl⟩,
    .of_funct7 0b0000000#7 0b010#3 0x33#7 (by decide) fun w h7 h3 ho =>
      ⟨.slt (rdField w) (rs1Field w) (rs2Field w), encodeR_eq_self h7 h3 ho, rfl, rfl⟩,
    .of_funct7 0b0000000#7 0b011#3 0x33#7 (by decide) fun w h7 h3 ho =>
      ⟨.sltu (rdField w) (rs1Field w) (rs2Field w), encodeR_eq_self h7 h3 ho, rfl, rfl⟩,
    .of_funct7 0b0000000#7 0b100#3 0x33#7 (by decide) fun w h7 h3 ho =>
      ⟨.xor (rdField w) (rs1Field w) (rs2Field w), encodeR_eq_self h7 h3 ho, rfl, rfl⟩,
    .of_funct7 0b0000000#7 0b101#3 0x33#7 (by decide) fun w h7 h3 ho =>
      ⟨.srl (rdField w) (rs1Field w) (rs2Field w), encodeR_eq_self h7 h3 ho, rfl, rfl⟩,
    .of_funct7 0b0100000#7 0b101#3 0x33#7 (by decide) fun w h7 h3 ho =>
      ⟨.sra (rdField w) (rs1Field w) (rs2Field w), encodeR_eq_self h7 h3 ho, rfl, rfl⟩,
    .of_funct7 0b0000000#7 0b110#3 0x33#7 (by decide) fun w h7 h3 ho =>
      ⟨.or (rdField w) (rs1Field w) (rs2Field w), encodeR_eq_self h7 h3 ho, rfl, rfl⟩,
    .of_funct7 0b0000000#7 0b111#3 0x33#7 (by decide) fun w h7 h3 ho =>
      ⟨.and (rdField w) (rs1Field w) (rs2Field w), encodeR_eq_self h7 h3 ho, rfl, rfl⟩,
    List.forall_mem_nil _⟩

theorem rowsSystem_encode : ∀ row ∈ rowsSystem, RowEncodes row := by
  simp only [rowsSystem, List.forall_mem_cons]
  exact ⟨.of_word .ecall rfl rfl rfl,
    .of_word .ebreak rfl rfl rfl,
    .of_funct3 0b001#3 0x73#7 (by decide) fun w h3 ho =>
      ⟨.csrrw (rdField w) (fieldCsr w) (rs1Field w), encodeI_eq_self h3 ho, rfl, rfl⟩,
    .of_funct3 0b010#3 0x73#7 (by decide) fun w h3 ho =>
      ⟨.csrrs (rdField w) (fieldCsr w) (rs1Field w), encodeI_eq_self h3 ho, rfl, rfl⟩,
    .of_funct3 0b011#3 0x73#7 (by decide) fun w h3 ho =>
      ⟨.csrrc (rdField w) (fieldCsr w) (rs1Field w), encodeI_eq_self h3 ho, rfl, rfl⟩,
    .of_funct3 0b101#3 0x73#7 (by decide) fun w h3 ho =>
      ⟨.csrrwi (rdField w) (fieldCsr w) (fieldZimm w), encodeI_eq_self h3 ho, rfl, rfl⟩,
    .of_funct3 0b110#3 0x73#7 (by decide) fun w h3 ho =>
      ⟨.csrrsi (rdField w) (fieldCsr w) (fieldZimm w), encodeI_eq_self h3 ho, rfl, rfl⟩,
    .of_funct3 0b111#3 0x73#7 (by decide) fun w h3 ho =>
      ⟨.csrrci (rdField w) (fieldCsr w) (fieldZimm w), encodeI_eq_self h3 ho, rfl, rfl⟩,
    List.forall_mem_nil _⟩

/-- Every row of the table encodes its own instruction. -/
theorem opcodeRows_encode : ∀ row ∈ opcodeRows, RowEncodes row := by
  simp only [opcodeRows, List.forall_mem_append]
  exact ⟨⟨⟨⟨⟨rowsUpperJump_encode, rowsBranch_encode⟩, rowsLoadStore_encode⟩, rowsAluImm_encode⟩, rowsAluReg_encode⟩,
    rowsSystem_encode⟩

/-- Settles O3: a legal word is its instruction's word, which has its row's pattern; a word of a row's pattern is the
word of an instruction of that row, to which it decodes. -/
theorem wordsDecodeByTheOpcodeTable : Obligations.WordsDecodeByTheOpcodeTable := by
  unfold Obligations.WordsDecodeByTheOpcodeTable
  refine fun w => ⟨fun i h => ?_, fun row hrow hw => ?_⟩
  · obtain ⟨he, -⟩ := encodeOfDecodeIsTheWord w i h
    exact he ▸ encode_matches_row i
  · obtain ⟨i, he, hwf, hn⟩ := opcodeRows_encode row hrow w hw
    exact ⟨i, decode_of_encode_eq he hwf, hn⟩

/-! ## The list of illegal words -/

/-- A word is illegal for every reason that holds of it. -/
theorem decode_of_illegalBecause {w : Word} {r : IllegalReason} (h : IllegalBecause w r) : decode w = .illegal r := by
  cases r with
  | unknownOpcode =>
    simp only [IllegalBecause, List.mem_cons, not_or] at h
    simp [decode, h]
  | jalrFunct3 =>
    obtain ⟨ho, h3⟩ := h
    rw [decode_of_opcode_jalr ho, if_neg h3]
  | loadFunct3 =>
    obtain ⟨ho, h3⟩ := h
    simp only [List.mem_cons, List.not_mem_nil, or_false] at h3
    rw [decode_of_opcode_load ho, decodeLoad]
    obtain h3 | h3 | h3 := h3 <;> simp [h3]
  | storeFunct3 =>
    obtain ⟨ho, h3⟩ := h
    simp only [List.mem_cons, List.not_mem_nil, or_false] at h3
    rw [decode_of_opcode_store ho, decodeStore]
    obtain h3 | h3 | h3 | h3 | h3 := h3 <;> simp [h3]
  | branchFunct3 =>
    obtain ⟨ho, h3⟩ := h
    simp only [List.mem_cons, List.not_mem_nil, or_false] at h3
    rw [decode_of_opcode_branch ho, decodeBranch]
    obtain h3 | h3 := h3 <;> simp [h3]
  | shiftFunct7 =>
    obtain ⟨ho, ⟨h3, h7⟩ | ⟨h3, h7⟩⟩ := h
    · simp [decode_of_opcode_aluImm ho, decodeAluImm, h3, h7]
    · simp only [List.mem_cons, List.not_mem_nil, or_false, not_or] at h7
      simp [decode_of_opcode_aluImm ho, decodeAluImm, h3, h7]
  | aluFunct =>
    obtain ⟨ho, h7, hsub⟩ := h
    simp only [List.mem_cons, List.not_mem_nil, or_false, not_and, not_or] at hsub
    rw [decode_of_opcode_aluReg ho, decodeAluReg, if_neg h7]
    split_ifs with h7' sub sra
    · exact absurd sub (hsub h7').1
    · exact absurd sra (hsub h7').2
    · rfl
    · rfl
  | systemWord =>
    obtain ⟨ho, h3, hw⟩ := h
    simp only [List.mem_cons, List.not_mem_nil, or_false, not_or] at hw
    rw [decode_of_opcode_system ho, decodeSystem, if_pos h3, if_neg hw.1, if_neg hw.2]
  | systemFunct3 =>
    obtain ⟨ho, h3⟩ := h
    simp [decode_of_opcode_system ho, decodeSystem, h3]
  | truncated => exact False.elim h

/-- A word is illegal for exactly the reasons that hold of it. -/
theorem decode_illegal_iff (w : Word) (r : IllegalReason) : decode w = .illegal r ↔ IllegalBecause w r := by
  refine ⟨fun h => ?_, decode_of_illegalBecause⟩
  have right := rightAnswer_decode w
  rwa [h] at right

/-- Settles O4: each item is what its reason stands for. -/
theorem illegalWordsAreTheNineItems : Obligations.IllegalWordsAreTheNineItems := by
  unfold Obligations.IllegalWordsAreTheNineItems
  intro w
  have item := decode_illegal_iff w
  exact ⟨item .unknownOpcode, item .jalrFunct3, item .loadFunct3, item .storeFunct3, item .branchFunct3,
    item .shiftFunct7, item .aluFunct, item .systemWord, item .systemFunct3, (item .truncated).mp⟩

/-! ## Bytes -/

/-- A word's bytes from the lowest up make the word (R56, R57). -/
theorem wordOfBytes_extract (w : Word) :
    wordOfBytes (w.extractLsb' 0 8) (w.extractLsb' 8 8) (w.extractLsb' 16 8) (w.extractLsb' 24 8) = w := by
  rw [wordOfBytes]
  iterate 3 rw [extract_append_extract _ _ (by decide)]
  exact extract_full w

/-- Settles O6: the decoder's own equations, on a word's four bytes and on a list of none to three. -/
theorem bytesDecodeLittleEndian : Obligations.BytesDecodeLittleEndian := by
  unfold Obligations.BytesDecodeLittleEndian
  refine ⟨fun w rest => ?_, fun bs hlen => ?_⟩
  · rw [decodeBytes, wordOfBytes_extract]
  · match bs, hlen with
    | [], _ => rfl
    | [_], _ => rfl
    | [_, _], _ => rfl
    | [_, _, _], _ => rfl

end Sys2Proof.Machine
end

section
/-! Memory's own obligations (20_memory.md): the range check, reading back what was written, the canonical form, and
what a load or a fetch gives after a store. -/

namespace Sys2Proof.Machine

/-! ## The range check -/

/-- The range check in numbers, without wrap (R54, D4). -/
theorem inRange_iff (s : State) (addr : Word) (n : Nat) :
    s.inRange addr n = true ↔ addr.toNat + n ≤ s.cfg.memCapacity := by
  rw [State.inRange, decide_eq_true_iff]

/-- Settles O35: the first clause at its two boundaries. -/
theorem rangeCheckIsExact : Obligations.RangeCheckIsExact := by
  unfold Obligations.RangeCheckIsExact
  refine fun s addr n => ⟨inRange_iff s addr n, fun h => ?_, fun h => ?_⟩
  · exact (inRange_iff s addr n).mpr h.le
  · rw [← Bool.not_eq_true, inRange_iff]
    omega

/-! ## Reading back what was written -/

/-- Settles O37, by induction on the width: the last byte's write leaves the bytes below it, and its own byte is the
value's next eight bits. -/
theorem memReadAfterMemWrite : Obligations.MemReadAfterMemWrite := by
  unfold Obligations.MemReadAfterMemWrite
  intro m a n v _
  induction n with
  | zero => rw [Memory.readLE, Nat.mul_zero, pow_zero, Nat.mod_one]
  | succ n ih =>
    have below : Memory.readLE (Memory.writeLE m a v (n + 1)) a n = Memory.readLE (Memory.writeLE m a v n) a n := by
      refine Memory.readLE_congr fun b _ hb => ?_
      rw [Memory.writeLE, Memory.read_write, if_neg (by omega)]
    rw [Memory.readLE, below, ih (by omega), read_writeLE_of_lt m a v (Nat.lt_succ_self n), BitVec.extractLsb'_toNat,
      Nat.shiftRight_eq_div_pow, Nat.mul_succ, pow_add, Nat.mod_mul, Nat.mul_comm (2 ^ (8 * n))]

/-- A read of the width of a write before it, at the same address. -/
theorem memRead_memWrite (s : State) (a : Word) {n : Nat} (v : Word) (hn : n ≤ 4) :
    (s.memWrite a n v).memRead a n = v.setWidth (8 * n) := by
  apply BitVec.eq_of_toNat_eq
  rw [State.memRead, memWrite_mem, memReadAfterMemWrite s.mem a.toNat n v hn, BitVec.toNat_ofNat, Nat.mod_mod,
    BitVec.toNat_setWidth]

/-- The state after a store in range. -/
theorem storeEffect_inRange {n : Nat} {rs1 rs2 : RegIdx} {imm : BitVec 12} {s : State}
    (hr : (effAddr rs1 imm s).toNat + n ≤ s.cfg.memCapacity) :
    finish (storeEffect n rs1 rs2 imm s) s =
      .next (retire (s.pc + 4#32) (s.memWrite (effAddr rs1 imm s) n (s.readReg rs2))) := by
  rw [storeEffect, if_pos ((inRange_iff s _ n).mpr hr)]
  rfl

/-- A store and a load of one width through the same base and offset: the load extends the low bytes stored. -/
theorem load_after_store {n : Nat} {extend : BitVec (8 * n) → Word} {store load : Instr} {rd rs1 rs2 : RegIdx}
    {imm : BitVec 12} {s : State} (hstore : exec store s = finish (storeEffect n rs1 rs2 imm s) s)
    (hload : ∀ t, exec load t = finish (loadEffect n extend rd rs1 imm t) t) (hrd : rd ≠ 0#5) (hn : n ≤ 4)
    (hr : (effAddr rs1 imm s).toNat + n ≤ s.cfg.memCapacity) :
    ∃ t u, exec store s = .next t ∧ exec load t = .next u ∧
      u.readReg rd = extend ((s.readReg rs2).setWidth (8 * n)) := by
  let t := retire (s.pc + 4#32) (s.memWrite (effAddr rs1 imm s) n (s.readReg rs2))
  have loaded : t.memRead (effAddr rs1 imm t) n = (s.readReg rs2).setWidth (8 * n) := memRead_memWrite s _ _ hn
  obtain ⟨u, hu, hreg, -⟩ := (LoadRule.of_loadEffect (hload t)).1 hr
  refine ⟨t, u, hstore.trans (storeEffect_inRange hr), hu, ?_⟩
  rw [hreg, if_neg hrd, if_pos rfl, loaded]

/-- The low byte of a word, extended, is the word under the byte's mask; so for two bytes. -/
theorem setWidth_setWidth_eq_and {k : Nat} (v mask : Word) (hk : k ≤ 32) (hm : mask.toNat = 2 ^ k - 1) :
    (v.setWidth k).setWidth 32 = v &&& mask := by
  apply BitVec.eq_of_toNat_eq
  rw [BitVec.toNat_and, hm, Nat.and_two_pow_sub_one_eq_mod, BitVec.toNat_setWidth_of_le hk, BitVec.toNat_setWidth]

/-- Settles O38: each pair is a store and a load of one width; a byte or half loaded unsigned is the low bits. -/
theorem storeThenLoadGivesTheStoredValue : Obligations.StoreThenLoadGivesTheStoredValue := by
  unfold Obligations.StoreThenLoadGivesTheStoredValue
  intro s rd rs1 rs2 imm hrd
  have byte := setWidth_setWidth_eq_and (k := 8) (s.readReg rs2) 0x000000FF#32 (by decide) rfl
  have half := setWidth_setWidth_eq_and (k := 16) (s.readReg rs2) 0x0000FFFF#32 (by decide) rfl
  refine ⟨fun hr => ?_, fun hr => ?_, fun hr => ?_⟩
  · rw [← byte]
    exact load_after_store rfl (fun _ => rfl) hrd (by decide) hr
  · rw [← half]
    exact load_after_store rfl (fun _ => rfl) hrd (by decide) hr
  · rw [← BitVec.setWidth_eq (s.readReg rs2)]
    exact load_after_store rfl (fun _ => rfl) hrd (by decide) hr

/-! ## Executing what was written -/

/-- A RUNNING core steps by the word in memory at an aligned `pc` in range (R100, R104). -/
theorem step_eq_execute {s : State} {w : Word} (hs : s.hstate = .running) (hpc : s.pc.toNat % 4 = 0)
    (hr : s.pc.toNat + 4 ≤ s.cfg.memCapacity) (hw : s.memRead s.pc 4 = w) : step s = execute w s := by
  rw [step_word hs (fetch_word hpc hr), hw]

/-- Settles O39: the store leaves `pc` at the address it stored to, so the fetch reads the stored word back. -/
theorem storeOverTheNextInstructionIsExecuted : Obligations.StoreOverTheNextInstructionIsExecuted := by
  unfold Obligations.StoreOverTheNextInstructionIsExecuted
  intro s rs1 rs2 imm hs hpc hea hr
  refine ⟨_, storeEffect_inRange hr, ?_⟩
  have stored := (memRead_memWrite s (s.pc + 4#32) (s.readReg rs2) (le_refl 4)).trans (BitVec.setWidth_eq _)
  rw [hea] at hr ⊢
  exact step_eq_execute hs (by rw [retire_pc]; bv_omega) hr stored

/-- A word in range is placed by writing it at `pc` (log entry 5). -/
theorem withFetchWord_toNat {s : State} (hr : s.pc.toNat + 4 ≤ s.cfg.memCapacity) (w : Word) :
    s.withFetchWord 32 w.toNat = s.memWrite s.pc 4 w := by
  rw [State.withFetchWord, if_pos ((inRange_iff s s.pc 4).mpr hr), Nat.mod_eq_of_lt w.isLt, BitVec.ofNat_toNat,
    BitVec.setWidth_eq]

/-- Settles O46: the placed word stands at `pc`, which placing it leaves alone. -/
theorem placedWordIsTheNextExecuted : Obligations.PlacedWordIsTheNextExecuted := by
  unfold Obligations.PlacedWordIsTheNextExecuted
  intro s w hs hpc hr
  rw [withFetchWord_toNat hr]
  exact step_eq_execute hs hpc hr ((memRead_memWrite s s.pc w (le_refl 4)).trans (BitVec.setWidth_eq w))

/-! ## The canonical form -/

/-- A canonical list by its first cell. -/
theorem Memory.wfFrom_cons_iff {lo k : Nat} {v : Byte} {m : Memory} :
    Memory.wfFrom lo ((k, v) :: m) = true ↔ lo ≤ k ∧ v ≠ Memory.unlisted ∧ Memory.wfFrom (k + 1) m = true := by
  simp only [Memory.wfFrom, Bool.and_eq_true, decide_eq_true_eq, and_assoc]

theorem Memory.read_cons_self (k : Nat) (v : Byte) (m : Memory) : Memory.read ((k, v) :: m) k = v := if_pos rfl

theorem Memory.read_cons_ne {k a : Nat} (v : Byte) (m : Memory) (h : a ≠ k) :
    Memory.read ((k, v) :: m) a = Memory.read m a := if_neg (Ne.symm h)

/-- A canonical memory reads `unlisted` below its first address. -/
theorem Memory.read_of_lt {m : Memory} {lo a : Nat} (h : Memory.wfFrom lo m = true) (ha : a < lo) :
    Memory.read m a = Memory.unlisted := by
  induction m generalizing lo with
  | nil => rfl
  | cons c m ih =>
    obtain ⟨hlo, -, htail⟩ := Memory.wfFrom_cons_iff.mp h
    rw [Memory.read_cons_ne _ m (by omega)]
    exact ih htail (by omega)

/-- Of two canonical memories that read alike, neither starts after the other. -/
theorem Memory.first_le {m m' : Memory} {lo lo' k k' : Nat} {v v' : Byte}
    (h : Memory.wfFrom lo ((k, v) :: m) = true) (h' : Memory.wfFrom lo' ((k', v') :: m') = true)
    (heq : ∀ a, Memory.read ((k, v) :: m) a = Memory.read ((k', v') :: m') a) : k' ≤ k := by
  obtain ⟨-, hv, -⟩ := Memory.wfFrom_cons_iff.mp h
  obtain ⟨-, hv', htail'⟩ := Memory.wfFrom_cons_iff.mp h'
  by_contra hlt
  have unread := Memory.read_of_lt (Memory.wfFrom_cons_iff.mpr ⟨le_refl k', hv', htail'⟩) (not_le.mp hlt)
  exact hv ((Memory.read_cons_self k v m).symm.trans ((heq k).trans unread))

/-- A canonical memory with a cell does not read like the empty one. -/
theorem Memory.read_cons_ne_nil {m : Memory} {lo k : Nat} {v : Byte} (h : Memory.wfFrom lo ((k, v) :: m) = true) :
    Memory.read ((k, v) :: m) k ≠ Memory.read [] k := by
  rw [Memory.read_cons_self]
  exact (Memory.wfFrom_cons_iff.mp h).2.1

/-- Canonical memories that read alike are equal: both start with the same cell, and beyond it they read alike. -/
theorem Memory.ext_of_wfFrom {m m' : Memory} {lo lo' : Nat} (h : Memory.wfFrom lo m = true)
    (h' : Memory.wfFrom lo' m' = true) (heq : ∀ a, Memory.read m a = Memory.read m' a) : m = m' := by
  induction m generalizing m' lo lo' with
  | nil =>
    cases m' with
    | nil => rfl
    | cons c' m' => exact absurd (heq c'.1).symm (Memory.read_cons_ne_nil h')
  | cons c m ih =>
    obtain ⟨k, v⟩ := c
    cases m' with
    | nil => exact absurd (heq k) (Memory.read_cons_ne_nil h)
    | cons c' m' =>
      obtain ⟨k', v'⟩ := c'
      obtain rfl : k = k' := le_antisymm (Memory.first_le h' h fun a => (heq a).symm) (Memory.first_le h h' heq)
      obtain rfl : v = v' := by simpa only [Memory.read_cons_self] using heq k
      obtain ⟨-, -, htail⟩ := Memory.wfFrom_cons_iff.mp h
      obtain ⟨-, -, htail'⟩ := Memory.wfFrom_cons_iff.mp h'
      congr 1
      refine ih htail htail' fun a => ?_
      by_cases ha : a = k
      · rw [Memory.read_of_lt htail (by omega), Memory.read_of_lt htail' (by omega)]
      · simpa only [Memory.read_cons_ne v _ ha] using heq a

/-- Settles O40: a write keeps the canonical form, which lists exactly the bytes that differ from `unlisted`, in
order. -/
theorem canonicalMemoriesAreEqualWhenTheyReadAlike : Obligations.CanonicalMemoriesAreEqualWhenTheyReadAlike := by
  unfold Obligations.CanonicalMemoriesAreEqualWhenTheyReadAlike
  exact ⟨fun _ a n v h => Memory.wf_writeLE a v n h, fun _ _ h h' heq => Memory.ext_of_wfFrom h h' heq⟩

end Sys2Proof.Machine
end

section
/-! What one instruction may change, read and halt on (10_state.md, 40_cycle.md, 60_exceptions.md), and the jumps' and
SYSTEM instructions' own obligations (41_upper_jump.md, 46_system_csr.md). -/

namespace Sys2Proof.Machine

/-! ## Frames -/

/-- The next state of an instruction is what an effect it may have makes of the state (R100). -/
theorem exec_next {i : Instr} {s t : State} (h : exec i s = .next t) : ∃ e, t = e.apply s ∧ EffectFits i s e := by
  obtain ⟨e, he, fit⟩ := exec_effect i s
  exact ⟨e, Host.Outcome.next.inj (h.symm.trans he), fit⟩

/-- No effect writes a register that the instruction does not name. -/
theorem EffectFits.readReg_eq {i : Instr} {s : State} {e : Effect} {r : RegIdx} (h : EffectFits i s e)
    (hr : i.destReg ≠ some r) : (e.apply s).readReg r = s.readReg r := by
  cases h with
  | halts c info _ => rfl
  | retires w p fit _ _ =>
    rw [Effect.apply, readReg_commit]
    cases hw : w.reg with
    | none => rfl
    | some write =>
      have dest : i.destReg = some write.1 := by rw [← fit.reg, hw, Option.map_some]
      have other : r ≠ write.1 := fun e => hr (e ▸ dest)
      by_cases hzero : r = 0#5
      · subst hzero
        rfl
      · simp only [hzero, other, if_false]

/-- No effect writes a byte outside the instruction's store. -/
theorem EffectFits.read_eq {i : Instr} {s : State} {e : Effect} {a : Nat} (h : EffectFits i s e)
    (ha : ∀ rs1 imm n, i.storeForm = some (rs1, imm, n) →
      a < (effAddr rs1 imm s).toNat ∨ (effAddr rs1 imm s).toNat + n ≤ a) :
    Memory.read (e.apply s).mem a = Memory.read s.mem a := by
  cases h with
  | halts c info _ => rfl
  | retires w p fit _ _ =>
    rw [Effect.apply, read_commit]
    cases hw : w.mem with
    | none => rfl
    | some write =>
      obtain ⟨ea, n, v⟩ := write
      obtain ⟨-, rs1, imm, hform, rfl⟩ := fit.mem ea n v hw
      have outside := ha rs1 imm n hform
      exact if_neg (by omega)

/-- No effect writes a CSR that the instruction does not name, or registers or removes one. -/
theorem EffectFits.csrRead_eq {i : Instr} {s : State} {e : Effect} (h : EffectFits i s e) (a : CsrAddr) :
    ((e.apply s).csrRead a).isSome = (s.csrRead a).isSome ∧
      (i.csrAddr? ≠ some a → (e.apply s).csrRead a = s.csrRead a) := by
  cases h with
  | halts c info _ => exact ⟨rfl, fun _ => rfl⟩
  | retires w p fit _ _ =>
    rw [Effect.apply, csrRead_commit]
    cases hw : w.csr with
    | none => exact ⟨rfl, fun _ => rfl⟩
    | some write =>
      obtain ⟨b, v⟩ := write
      obtain ⟨hname, hreg⟩ := fit.csr b v hw
      by_cases hab : a = b
      · subst hab
        exact ⟨by simp [hreg], fun hn => absurd hname hn⟩
      · simp [hab]

/-- Settles O16: an effect writes at most the destination, and no state's `x0` reads otherwise than 0. -/
theorem onlyTheNamedRegisterIsWritten : Obligations.OnlyTheNamedRegisterIsWritten := by
  unfold Obligations.OnlyTheNamedRegisterIsWritten
  intro i s t h
  obtain ⟨e, rfl, fit⟩ := exec_next h
  exact ⟨readReg_zero _, fun r hr => fit.readReg_eq hr⟩

/-- Settles O17: an effect writes at most a store's bytes. -/
theorem onlyAStoresOwnBytesChange : Obligations.OnlyAStoresOwnBytesChange := by
  unfold Obligations.OnlyAStoresOwnBytesChange
  intro i s t a h ha
  obtain ⟨e, rfl, fit⟩ := exec_next h
  exact fit.read_eq ha

/-- Settles O18: an effect writes at most the named CSR, and only a registered one. -/
theorem onlyTheNamedCsrIsWritten : Obligations.OnlyTheNamedCsrIsWritten := by
  unfold Obligations.OnlyTheNamedCsrIsWritten
  intro i s t a h
  obtain ⟨e, rfl, fit⟩ := exec_next h
  exact fit.csrRead_eq a

/-- Settles O19: an effect that the instruction may have halts for its halt condition, or retires where there is none
and keeps the halt state. -/
theorem instructionHaltsExactlyOnItsOwnCondition : Obligations.InstructionHaltsExactlyOnItsOwnCondition := by
  unfold Obligations.InstructionHaltsExactlyOnItsOwnCondition
  intro i s
  obtain ⟨e, he, fit⟩ := exec_effect i s
  rw [he]
  cases fit with
  | halts c info why =>
    refine ⟨fun c' info' hc => ?_, fun hn => absurd (why.symm.trans hn) (Option.some_ne_none _)⟩
    obtain ⟨rfl, rfl⟩ := Prod.mk.inj (Option.some.inj (why.symm.trans hc))
    exact .of_halt s c info
  | retires w p _ _ runs =>
    exact ⟨fun c info hc => absurd (hc.symm.trans runs) (Option.some_ne_none _), fun _ =>
      ⟨_, rfl, commit_hstate w p s, commit_haltCause w p s, commit_haltInfo w p s⟩⟩

/-! ## What no instruction reads -/

/-- An effect counts on from any `icount` by the same amount, and leaves all else the same. -/
theorem Effect.apply_withIcount (e : Effect) (s : State) (c : BitVec 64) :
    e.apply { s with icount := c } = { e.apply s with icount := c + ((e.apply s).icount - s.icount) } := by
  cases e with
  | halt cause info =>
    rw [Effect.apply, Effect.apply, halt_icount, BitVec.sub_self, BitVec.add_zero]
    rfl
  | retire w p =>
    rw [Effect.apply, Effect.apply, commit_icount, add_sub_cancel_left]
    obtain ⟨_ | _, _ | _, _ | _⟩ := w <;> rfl

theorem finish_withIcount {e : Effect} {s t : State} (c : BitVec 64) (h : finish e s = .next t) :
    finish e { s with icount := c } = .next { t with icount := c + (t.icount - s.icount) } := by
  obtain rfl := Host.Outcome.next.inj h
  exact congrArg _ (e.apply_withIcount s c)

/-- No instruction reads `icount`: each one's effect is the same whatever it holds (R32). -/
theorem exec_withIcount {i : Instr} {s t : State} (c : BitVec 64) (h : exec i s = .next t) :
    exec i { s with icount := c } = .next { t with icount := c + (t.icount - s.icount) } := by
  cases i <;> exact finish_withIcount c h

theorem execute_withIcount {w : Word} {s t : State} (c : BitVec 64) (h : execute w s = .next t) :
    execute w { s with icount := c } = .next { t with icount := c + (t.icount - s.icount) } := by
  cases hd : decode w with
  | illegal r =>
    rw [execute_illegal _ hd] at h ⊢
    exact finish_withIcount (e := .halt .illegalInstruction w) c h
  | legal i =>
    rw [execute_legal _ hd] at h ⊢
    exact exec_withIcount c h

/-- A core is RUNNING or HALTED (R33). -/
theorem hstate_cases (s : State) : s.hstate = .running ∨ s.hstate = .halted := by
  cases s.hstate
  · exact .inl rfl
  · exact .inr rfl

/-- Settles O52: the fetch does not read `icount` either, so both states halt alike or run the same word. -/
theorem icountIsInvisibleToPrograms : Obligations.IcountIsInvisibleToPrograms := by
  unfold Obligations.IcountIsInvisibleToPrograms
  intro s t c h
  obtain hs | hs := hstate_cases s
  · cases hf : fetch s with
    | fails cause =>
      rw [step_fails hs hf] at h
      rw [step_fails (s := { s with icount := c }) hs hf]
      exact finish_withIcount (e := .halt cause s.pc) c h
    | word w =>
      rw [step_word hs hf] at h
      rw [step_word (s := { s with icount := c }) hs hf]
      exact execute_withIcount c h
  · obtain rfl := Host.Outcome.next.inj ((step_halted hs).symm.trans h)
    rw [step_halted (s := { s with icount := c }) hs, BitVec.sub_self, BitVec.add_zero]

/-- The effect writes no CSR. -/
def Effect.WritesNoCsr : Effect → Prop
  | .retire w _ => w.csr = none
  | .halt _ _ => True

theorem writesNoCsr_loadEffect (n : Nat) (extend : BitVec (8 * n) → Word) (rd rs1 : RegIdx) (imm : BitVec 12)
    (s : State) : (loadEffect n extend rd rs1 imm s).WritesNoCsr := by
  unfold loadEffect
  split
  · rfl
  · trivial

theorem writesNoCsr_storeEffect (n : Nat) (rs1 rs2 : RegIdx) (imm : BitVec 12) (s : State) :
    (storeEffect n rs1 rs2 imm s).WritesNoCsr := by
  unfold storeEffect
  split
  · rfl
  · trivial

theorem writesNoCsr_branchEffect (op : CmpOp) (rs1 rs2 : RegIdx) (off : BitVec 13) (s : State) :
    (branchEffect op rs1 rs2 off s).WritesNoCsr := by
  unfold branchEffect
  split
  · rfl
  · rfl

theorem finish_withCsrs {e : Effect} {s t : State} (m : List (CsrAddr × Word)) (hw : e.WritesNoCsr)
    (h : finish e s = .next t) : finish e { s with csrs := m } = .next { t with csrs := m } := by
  obtain rfl := Host.Outcome.next.inj h
  cases e with
  | halt c info => rfl
  | retire w p =>
    obtain ⟨reg, mem, csr⟩ := w
    obtain rfl : csr = none := hw
    cases reg <;> cases mem <;> rfl

/-- Settles O53: the effects of the instructions that are no CSR instructions write no CSR, and read none. -/
theorem csrsDoNotAffectOtherInstructions : Obligations.CsrsDoNotAffectOtherInstructions := by
  unfold Obligations.CsrsDoNotAffectOtherInstructions
  intro i s t m hi h
  cases i
  case lb | lh | lw | lbu | lhu => exact finish_withCsrs m (writesNoCsr_loadEffect _ _ _ _ _ _) h
  case sb | sh | sw => exact finish_withCsrs m (writesNoCsr_storeEffect _ _ _ _ _) h
  case beq | bne | blt | bge | bltu | bgeu => exact finish_withCsrs m (writesNoCsr_branchEffect _ _ _ _ _) h
  case csrrw | csrrs | csrrc | csrrwi | csrrsi | csrrci => exact absurd hi (Option.some_ne_none _)
  case ecall | ebreak => exact finish_withCsrs m trivial h
  all_goals exact finish_withCsrs m rfl h

/-! ## Jumps and SYSTEM instructions -/

/-- An offset with a zero appended below is even (R77). -/
theorem offsetEven21_append_zero (x : BitVec 20) : offsetEven21 (x ++ 0#1) = true := by
  rw [offsetEven21, getLsbD_append_zero, Bool.not_false]

/-- The J format's order of the immediate's bits (R77). -/
theorem encodeJ_append (b20 b11 : BitVec 1) (b10_1 : BitVec 10) (b19_12 : BitVec 8) (rd : RegIdx) (opc : BitVec 7) :
    encodeJ (b20 ++ b19_12 ++ b11 ++ b10_1 ++ 0#1) rd opc = b20 ++ b10_1 ++ b11 ++ b19_12 ++ rd ++ opc := by
  have bit20 : (b20 ++ b19_12 ++ b11 ++ b10_1 ++ 0#1).extractLsb' 20 1 = b20 := by
    iterate 4 rw [extract_append_high _ _ (by decide)]
    exact extract_full b20
  have bits19_12 : (b20 ++ b19_12 ++ b11 ++ b10_1 ++ 0#1).extractLsb' 12 8 = b19_12 := by
    iterate 3 rw [extract_append_high _ _ (by decide)]
    exact (extract_append_low b20 b19_12 (by decide)).trans (extract_full b19_12)
  have bit11 : (b20 ++ b19_12 ++ b11 ++ b10_1 ++ 0#1).extractLsb' 11 1 = b11 := by
    iterate 2 rw [extract_append_high _ _ (by decide)]
    exact (extract_append_low (b20 ++ b19_12) b11 (by decide)).trans (extract_full b11)
  have bits10_1 : (b20 ++ b19_12 ++ b11 ++ b10_1 ++ 0#1).extractLsb' 1 10 = b10_1 := by
    rw [extract_append_high _ _ (by decide)]
    exact (extract_append_low (b20 ++ b19_12 ++ b11) b10_1 (by decide)).trans (extract_full b10_1)
  rw [encodeJ, bit20, bits10_1, bit11, bits19_12]

/-- Settles O21: each jump is one register write, of the link, with its own target; JAL's words are `encodeJ`'s, and
JALR's decode by their `funct3`. -/
theorem jumpsLinkAndGoToTheirTarget : Obligations.JumpsLinkAndGoToTheirTarget := by
  unfold Obligations.JumpsLinkAndGoToTheirTarget
  refine fun s rd rs1 => ⟨fun off => .of_retire s rd _ _, fun imm => .of_retire s rd _ _, ?_, ?_, ?_⟩
  · intro b20 b10_1 b11 b19_12
    rw [← encodeJ_append]
    exact decode_encodeJ_jal (offsetEven21_append_zero _) rd
  · exact fun imm => decode_encodeI_jalr imm rs1 0b000#3 rd
  · exact fun imm f3 h3 => (decode_encodeI_jalr imm rs1 f3 rd).trans (if_neg h3)

/-- Only its own word decodes to a well-formed instruction. -/
theorem decode_legal_iff {i : Instr} (hwf : i.wf = true) (w : Word) : decode w = .legal i ↔ w = encode i := by
  refine ⟨fun h => (encodeOfDecodeIsTheWord w i h).1.symm, fun h => decode_of_encode_eq h.symm hwf⟩

/-- Settles O30: each is one `halt` at `pc`, and its word is a whole one. -/
theorem ecallAndEbreakHaltInPlace : Obligations.EcallAndEbreakHaltInPlace := by
  unfold Obligations.EcallAndEbreakHaltInPlace
  exact fun s => ⟨.of_halt s .ecall s.pc, .of_halt s .ebreak s.pc, decode_legal_iff (i := .ecall) rfl,
    decode_legal_iff (i := .ebreak) rfl⟩

/-- Settles O34: the value CSRRW installs is the old one of CSRRS, which sets no bit of it. -/
theorem csrrsOfZeroReadsBackWhatCsrrwWrote : Obligations.CsrrsOfZeroReadsBackWhatCsrrwWrote := by
  unfold Obligations.CsrrsOfZeroReadsBackWhatCsrrwWrote
  intro s rd rs1 rd' a old hold hrd hrd'
  obtain ⟨⟨swap, -⟩, -⟩ := csrRegisterFormsReadAndModify s rd rs1 a
  obtain ⟨t, ht, htreg, -, htcsr, -⟩ := swap old hold
  have installed : t.csrRead a = some (s.readReg rs1) := (htcsr a).trans (if_pos rfl)
  obtain ⟨-, ⟨setBits, -⟩, -⟩ := csrRegisterFormsReadAndModify t rd' 0#5 a
  obtain ⟨u, hu, hureg, -, hucsr, -⟩ := setBits _ installed
  refine ⟨t, u, ht, hu, ?_, installed, ?_, fun b => ?_⟩
  · rw [htreg, if_neg hrd, if_pos rfl]
  · rw [hureg, if_neg hrd', if_pos rfl]
  · simp only [hucsr, readReg_zero, BitVec.or_zero]
    by_cases hb : b = a
    · rw [if_pos hb, hb, installed]
    · rw [if_neg hb]

end Sys2Proof.Machine
end

section
/-! The obligations of the cycle, the halt state, reset and the invariant (10_state.md, 40_cycle.md, 60_exceptions.md,
70_reset_and_hazards.md): what a step and the host's calls do, why a step halts, and what every step keeps. -/

namespace Sys2Proof.Machine

/-! ## The step -/

/-- A RUNNING core halts with a cause, or commits writes that some instruction may make (R100, R105). -/
theorem step_halts_or_commits {s : State} (hs : s.hstate = .running) :
    (∃ c info, c ≠ .none ∧ step s = .next (halt c info s)) ∨
      ∃ i w p, WritesFit i s w ∧ step s = .next (commit w p s) := by
  obtain ⟨c, -, hc, he⟩ | ⟨w, r, -, -, he⟩ | ⟨w, i, e, -, -, he, fit⟩ := step_running hs
  · exact .inl ⟨c, s.pc, hc, he⟩
  · exact .inl ⟨.illegalInstruction, w, HaltCause.noConfusion, he⟩
  · cases fit with
    | halts c info why => exact .inl ⟨c, info, haltCondition_cause why, he⟩
    | retires writes p fit _ _ => exact .inr ⟨i, writes, p, fit, he⟩

/-- Settles O13: a HALTED core stays, a RUNNING one halts or commits. -/
theorem everyStepHasANextState : Obligations.EveryStepHasANextState := by
  unfold Obligations.EveryStepHasANextState
  intro s
  obtain hs | hs := hstate_cases s
  · obtain ⟨c, info, -, he⟩ | ⟨i, w, p, -, he⟩ := step_halts_or_commits hs
    · exact ⟨_, he⟩
    · exact ⟨_, he⟩
  · exact ⟨s, step_halted hs⟩

/-- Settles O15: a commit counts one and leaves the core RUNNING, a halt counts none. -/
theorem icountCountsRetiredSteps : Obligations.IcountCountsRetiredSteps := by
  unfold Obligations.IcountCountsRetiredSteps
  intro s t h
  obtain hs | hs := hstate_cases s
  · obtain ⟨c, info, -, he⟩ | ⟨i, w, p, -, he⟩ := step_halts_or_commits hs
    · obtain rfl := Host.Outcome.next.inj (h.symm.trans he)
      simp
    · obtain rfl := Host.Outcome.next.inj (h.symm.trans he)
      simp [hs]
  · obtain rfl := Host.Outcome.next.inj (h.symm.trans (step_halted hs))
    simp [hs]

/-- Settles O7: the word at `pc` is that of its four bytes, and it decodes to the instruction. -/
theorem stepRunsTheDecodedInstruction : Obligations.StepRunsTheDecodedInstruction := by
  unfold Obligations.StepRunsTheDecodedInstruction
  intro s i hs hpc hr hd
  rw [step_eq_execute hs hpc hr (memRead_wordOfBytes s s.pc)]
  exact execute_legal s hd

/-- Settles O10: the alignment check passes and the range check fails. -/
theorem fetchOutOfRangeHalts : Obligations.FetchOutOfRangeHalts := by
  unfold Obligations.FetchOutOfRangeHalts
  intro s hs hpc hr
  rw [step_fails hs (fetch_outOfRange hpc hr)]
  exact .of_halt _ _ _

/-! ## The host's `exec(word)` and other calls -/

theorem execWord_halted {s : State} (w : Word) (hs : s.hstate = .halted) : execWord w s = .next s := by
  simp only [execWord, hs]

theorem execWord_misaligned {s : State} (w : Word) (hs : s.hstate = .running) (hpc : s.pc.toNat % 4 ≠ 0) :
    execWord w s = .next (halt .fetchMisaligned s.pc s) := by
  simp only [execWord, hs, if_neg (mt (pcAligned_iff s).mp hpc)]

theorem execWord_aligned {s : State} (w : Word) (hs : s.hstate = .running) (hpc : s.pc.toNat % 4 = 0) :
    execWord w s = execute w s := by
  simp only [execWord, hs, if_pos ((pcAligned_iff s).mpr hpc)]

/-- Where the four bytes at `pc` exist, a step is `exec` of their word (R112). -/
theorem step_eq_execWord {s : State} (hr : s.pc.toNat + 4 ≤ s.cfg.memCapacity) :
    step s = execWord (s.memRead s.pc 4) s := by
  obtain hs | hs := hstate_cases s
  · by_cases hpc : s.pc.toNat % 4 = 0
    · rw [execWord_aligned _ hs hpc, step_eq_execute hs hpc hr rfl]
    · rw [execWord_misaligned _ hs hpc, step_fails hs (fetch_misaligned hpc)]
  · rw [execWord_halted _ hs, step_halted hs]

/-- Settles O45: the three answers of `exec(word)`, and its agreement with the step. -/
theorem execWordAgreesWithStep : Obligations.ExecWordAgreesWithStep := by
  unfold Obligations.ExecWordAgreesWithStep
  refine fun s w => ⟨execWord_halted w, fun hs hpc => ?_, execWord_aligned w, step_eq_execWord⟩
  rw [execWord_misaligned w hs hpc]
  exact .of_halt _ _ _

/-- The host's write changes memory alone (R65). -/
theorem hostPoke_hstate (a : Nat) (b : Byte) (s : State) : (hostPoke a b s).hstate = s.hstate := by
  unfold hostPoke
  split
  · rfl
  · rfl

/-- Settles O8: the step and `exec(word)` answer a HALTED state itself, the host's write changes memory alone, and reset
is a launch, whose core is RUNNING. -/
theorem onlyResetLeavesHalted : Obligations.OnlyResetLeavesHalted := by
  unfold Obligations.OnlyResetLeavesHalted
  exact fun s => ⟨fun c info => halt_hstate c info s, step_halted, fun hs w => execWord_halted w hs,
    fun hs a b => (hostPoke_hstate a b s).trans hs, rfl⟩

/-! ## Why a step halts -/

/-- A code is its cause's place in the table (R34). -/
theorem HaltCause.ofNat_code (c : HaltCause) : HaltCause.ofNat c.code.toNat = c := by
  cases c <;> rfl

/-- Settles O42: a cause is found from its code. -/
theorem haltCausesHaveTheirCodes : Obligations.HaltCausesHaveTheirCodes := by
  unfold Obligations.HaltCausesHaveTheirCodes
  refine ⟨rfl, fun c d h => ?_⟩
  rw [← HaltCause.ofNat_code c, h, HaltCause.ofNat_code d]

/-- A fetched word is the one at `pc` (R104). -/
theorem eq_memRead_of_fetch {s : State} {w : Word} (h : fetch s = .word w) : w = s.memRead s.pc 4 := by
  obtain ⟨-, hf⟩ | ⟨-, -, hf⟩ | ⟨-, -, hf⟩ := fetch_cases s
  · cases h.symm.trans hf
  · cases h.symm.trans hf
  · exact Fetched.word.inj (h.symm.trans hf)

/-- A fetch that fails says why. -/
theorem haltReasonTrue_of_fetch {s : State} {c : HaltCause} (h : fetch s = .fails c) :
    haltReasonTrue (halt c s.pc s) := by
  obtain ⟨ha, hf⟩ | ⟨ha, hr, hf⟩ | ⟨-, -, hf⟩ := fetch_cases s
  · obtain rfl := Fetched.fails.inj (h.symm.trans hf)
    exact ⟨rfl, fun hpc => absurd ((pcAligned_iff s).mpr hpc) (by simp [ha])⟩
  · obtain rfl := Fetched.fails.inj (h.symm.trans hf)
    exact ⟨rfl, (pcAligned_iff s).mp ha, not_le.mp fun hle => absurd ((inRange_iff s _ 4).mpr hle) (by simp [hr])⟩
  · cases h.symm.trans hf

/-- An instruction's own halt condition, met by the instruction at `pc`, is a true reason. -/
theorem haltReasonTrue_of_haltCondition {i : Instr} {s : State} {c : HaltCause} {info : Word}
    (hd : decode (s.memRead s.pc 4) = .legal i) (h : haltCondition i s = some (c, info)) :
    haltReasonTrue (halt c info s) := by
  unfold haltCondition at h
  split at h
  · cases h
    exact ⟨rfl, (decode_legal_iff (i := .ecall) rfl _).mp hd⟩
  · cases h
    exact ⟨rfl, (decode_legal_iff (i := .ebreak) rfl _).mp hd⟩
  · split at h
    next rs1 imm n hload =>
      split_ifs at h with hr
      cases h
      exact ⟨i, rs1, imm, n, hd, hload, rfl, not_le.mp hr⟩
    next rs1 imm n hstore _ =>
      split_ifs at h with hr
      cases h
      exact ⟨i, rs1, imm, n, hd, hstore, rfl, not_le.mp hr⟩
    next a hcsr _ _ =>
      split_ifs at h with hnone
      cases h
      exact ⟨i, a, hd, hcsr, hnone, (zero_append_eq_setWidth 20 a).symm⟩
    next => cases h

/-- Settles O51: a fetch that fails, an illegal word and the decoded instruction each record their own reason. -/
theorem haltReasonIsTrue : Obligations.HaltReasonIsTrue := by
  unfold Obligations.HaltReasonIsTrue
  intro s t hs h ht
  obtain ⟨c, hf, -, he⟩ | ⟨w, r, hf, hd, he⟩ | ⟨w, i, e, hf, hd, he, fit⟩ := step_running hs
  · obtain rfl := Host.Outcome.next.inj (h.symm.trans he)
    exact haltReasonTrue_of_fetch hf
  · obtain rfl := Host.Outcome.next.inj (h.symm.trans he)
    obtain rfl := eq_memRead_of_fetch hf
    exact ⟨rfl, r, hd⟩
  · obtain rfl := Host.Outcome.next.inj (h.symm.trans he)
    obtain rfl := eq_memRead_of_fetch hf
    cases fit with
    | halts c info why => exact haltReasonTrue_of_haltCondition hd why
    | retires w p _ _ _ => cases ht.symm.trans ((commit_hstate w p s).trans hs)

/-! ## Reset -/

theorem readReg_launch (c : Config) (image : Memory) (r : RegIdx) : (State.launch c image).readReg r = 0#32 := by
  simp [State.readReg, State.launch]

/-- A launch within the constraints meets the invariant. -/
theorem inv_launch {c : Config} {image : Memory} (hc : c.wf = true) (hm : Memory.wf image = true)
    (hb : Memory.below c.memCapacity image = true) : (State.launch c image).Inv :=
  ⟨hc, hm, hb, rfl, rfl, rfl⟩

/-- Settles O47: reset is the launch with the default parameters and the empty image. -/
theorem launchMeetsTheInvariant : Obligations.LaunchMeetsTheInvariant := by
  unfold Obligations.LaunchMeetsTheInvariant
  exact ⟨inv_launch (by decide) rfl rfl, fun _ _ hc hm hb => inv_launch hc hm hb⟩

/-- Settles O44: reset is the launch with the state's own parameters and memory. -/
theorem resetRestoresAllButMemory : Obligations.ResetRestoresAllButMemory := by
  unfold Obligations.ResetRestoresAllButMemory
  refine fun s => ⟨readReg_launch s.cfg s.mem, rfl, rfl, rfl, rfl, rfl, rfl, rfl, rfl, fun hinv => ?_⟩
  obtain ⟨hc, hm, hb, -⟩ := hinv
  exact inv_launch hc hm hb

/-- The default CSR map holds 0 at the four addresses and registers no other (R38). -/
theorem csrRead_reset (a : CsrAddr) :
    State.reset.csrRead a = if a ∈ [0xF14#12, 0x300#12, 0x301#12, 0x342#12] then some 0#32 else none := by
  have listed : State.reset.csrs.map Prod.fst ⊆ [0xF14#12, 0x300#12, 0x301#12, 0x342#12] := by decide
  split_ifs with ha
  · simp only [List.mem_cons, List.not_mem_nil, or_false] at ha
    obtain rfl | rfl | rfl | rfl := ha <;> rfl
  · rw [← Option.not_isSome_iff_eq_none]
    exact fun h => ha (listed ((csrFind_isSome_iff _ a).mp h))

/-- Settles O43: reset is the launch with the default parameters and nothing listed in memory. -/
theorem resetStateHoldsTheResetValues : Obligations.ResetStateHoldsTheResetValues := by
  unfold Obligations.ResetStateHoldsTheResetValues
  exact ⟨readReg_launch _ _, rfl, rfl, rfl, rfl, rfl, csrRead_reset, fun _ => rfl⟩

/-! ## The invariant -/

/-- The four addresses of R38 are in every CSR_SET within the constraints. -/
theorem mem_csrReset_of_wf {c : Config} (h : c.wf = true) :
    ∀ a ∈ [0xF14#12, 0x300#12, 0x301#12, 0x342#12], a ∈ c.csrReset.map Prod.fst := by
  have named : [0xF14#12, 0x300#12, 0x301#12, 0x342#12] ⊆ [csrMstatus, csrMstatusAlt, csrMtvec, csrMhartid] := by decide
  simp only [Config.wf, Bool.and_eq_true, List.all_eq_true, List.any_eq_true, beq_iff_eq] at h
  obtain ⟨-, hall⟩ := h
  exact fun a ha => List.mem_map.mpr (hall a (named ha))

/-- Settles O33: the invariant says which addresses the map lists, and the parameters' constraints which are among
them. -/
theorem registeredCsrsAreTheParameter : Obligations.RegisteredCsrsAreTheParameter := by
  unfold Obligations.RegisteredCsrsAreTheParameter
  intro s hinv
  obtain ⟨hcfg, -, -, hcsrs, -⟩ := hinv
  have registered (a : CsrAddr) : (s.csrRead a).isSome = true ↔ a ∈ s.cfg.csrReset.map Prod.fst :=
    hcsrs ▸ csrFind_isSome_iff s.csrs a
  exact ⟨registered, fun a ha => (registered a).mpr (mem_csrReset_of_wf hcfg a ha)⟩

/-- A halt with a cause keeps the invariant. -/
theorem inv_halt {s : State} {c : HaltCause} {info : Word} (hc : c ≠ .none) (h : s.Inv) : (halt c info s).Inv := by
  obtain ⟨hcfg, hmem, hbelow, hcsrs, hzero, -⟩ := h
  exact ⟨hcfg, hmem, hbelow, hcsrs, hzero, decide_eq_true hc⟩

/-- Committing writes that an instruction may make keeps the invariant. -/
theorem inv_commit {i : Instr} {s : State} {w : Writes} {p : Word} (fit : WritesFit i s w) (h : s.Inv) :
    (commit w p s).Inv := by
  obtain ⟨hcfg, hmem, hbelow, hcsrs, hzero, hhalt⟩ := h
  unfold State.Inv haltCoherent
  rw [commit_cfg, commit_mem, commit_csrs, commit_regs, commit_hstate, commit_haltCause, commit_haltInfo]
  refine ⟨hcfg, ?_, ?_, ?_, ?_, hhalt⟩
  · cases w.mem with
    | none => exact hmem
    | some write => exact Memory.wf_writeLE _ _ _ hmem
  · cases hw : w.mem with
    | none => exact hbelow
    | some write =>
      obtain ⟨a, n, v⟩ := write
      obtain ⟨hr, -⟩ := fit.mem a n v hw
      exact Memory.below_writeLE v ((inRange_iff s a n).mp hr) hbelow
  · cases w.csr with
    | none => exact hcsrs
    | some write => exact (csrReplace_addrs s.csrs write.1 write.2).trans hcsrs
  · cases w.reg with
    | none => exact hzero
    | some write => exact (writeReg_regs_zero s write.1 write.2).trans hzero

/-- Settles O48: a halt with a cause and a commit of an instruction's writes each keep the invariant. -/
theorem stepKeepsTheInvariant : Obligations.StepKeepsTheInvariant := by
  unfold Obligations.StepKeepsTheInvariant
  intro s t hinv h
  obtain hs | hs := hstate_cases s
  · obtain ⟨c, info, hc, he⟩ | ⟨i, w, p, fit, he⟩ := step_halts_or_commits hs
    · obtain rfl := Host.Outcome.next.inj (h.symm.trans he)
      exact ⟨inv_halt hc hinv, halt_cfg c info s⟩
    · obtain rfl := Host.Outcome.next.inj (h.symm.trans he)
      exact ⟨inv_commit fit hinv, commit_cfg w p s⟩
  · obtain rfl := Host.Outcome.next.inj (h.symm.trans (step_halted hs))
    exact ⟨hinv, rfl⟩

/-- Settles O49, by induction on the number of steps. -/
theorem runsNeverStopAndKeepTheInvariant : Obligations.RunsNeverStopAndKeepTheInvariant := by
  unfold Obligations.RunsNeverStopAndKeepTheInvariant
  intro n
  induction n with
  | zero => exact fun s hinv => ⟨s, runSteps_zero s, hinv⟩
  | succ n ih =>
    intro s hinv
    obtain ⟨t, ht⟩ := everyStepHasANextState s
    rw [runSteps_succ n ht]
    exact ih t (stepKeepsTheInvariant s t hinv ht).1

/-- A coherent RUNNING state that halts is its own form before the halt. -/
theorem unhalted_halt {s : State} (c : HaltCause) (info : Word) (hs : s.hstate = .running)
    (h : haltCoherent s = true) : unhalted (halt c info s) = s := by
  obtain ⟨hcause, hinfo⟩ : s.haltCause = .none ∧ s.haltInfo = 0 := by simpa [haltCoherent, hs] using h
  simp only [unhalted, halt, ← hs, ← hcause, ← hinfo]

/-- Settles O50: a step that halts is a `halt` of the coherent RUNNING state it started from, which is that state's own
RUNNING form. -/
theorem haltsArePrecise : Obligations.HaltsArePrecise := by
  unfold Obligations.HaltsArePrecise
  intro s t hinv hprecise h
  obtain hs | hs := hstate_cases s
  · intro ht
    obtain ⟨-, -, -, -, -, hcoherent⟩ := hinv
    obtain ⟨c, info, rfl⟩ := step_eq_halt hs h ht
    rw [unhalted_halt c info hs hcoherent]
    exact h
  · obtain rfl := Host.Outcome.next.inj (h.symm.trans (step_halted hs))
    exact hprecise

end Sys2Proof.Machine
end
